-- ==== Sys2Proof/Word.lean ====
section
/-! DEFINITION. The plain data a command and a line carry: a level (one bit) and a byte. -/

namespace Sys2Proof

/-- A level of a line, one bit (R6): `true` is 1 ("assert", "on()", "high"), `false` is 0. -/
abbrev Level := Bool

/-- One byte of a command stream, a character code, a brightness code or a pattern byte (R51, R52, R53). -/
abbrev Byte := BitVec 8

end Sys2Proof
end

