-- ==== Sys2Proof/Syntax.lean ====
section
/-! DEFINITION. The nine commands of CSTE-1 (R56), one constructor per row of the opcode table, with the
operands of R54. There are no pseudo-commands (R61). -/

namespace Sys2Proof

/-- The two registers of the chain a latch pulse can write (R35, R36): the target of SWITCHMODE and
the mode the chain is in. It is state of the chain, not of the block (R22, R118). -/
inductive ChainMode where
  | normal
  | special
  deriving DecidableEq, Repr

/-- A command: CD's operations in the order of R56. A sequence or a text may have any length
(R53: "sequences of any length"); the byte form caps it at 255 (`Instr.wf`). -/
inductive Instr where
  /-- ENCODE ch (R70): `ch` is a character code, every byte value legal (R58). -/
  | encode (ch : Byte)
  /-- SENDBIT bit (R80). -/
  | sendbit (bit : Level)
  /-- SENDSERIAL bits (R82): index 0 first, the caller's left-to-right order. -/
  | sendserial (bits : List Level)
  /-- LATCH (R84). -/
  | latch
  /-- SWITCHMODE mode (R86): the target mode. -/
  | switchmode (mode : ChainMode)
  /-- SETBRIGHTNESS code (R88): all 256 codes legal. -/
  | setbrightness (code : Byte)
  /-- RENDER text (R100): `text[0]` is the leftmost character. -/
  | render (text : List Byte)
  /-- ENABLE (R102). -/
  | enable
  /-- DISABLE (R103). -/
  | disable
  deriving DecidableEq, Repr

end Sys2Proof
end

