-- ==== Sys2Proof/Config.lean ====
section
/-! DEFINITION. What an implementation fixes (R5: "the model takes each as a configuration field") and the
values the spec leaves free. The configuration is a field of State, so that every statement over all states
holds for every configuration; the free values are opaque and nothing can evaluate them. -/

namespace Sys2Proof

/-- The segment letters, "the seven lamp segments plus decimal point" (00_scope, glossary). -/
inductive Segment where
  | a | b | c | d | e | f | g | p
  deriving DecidableEq, Repr

/-- The twelve characters of the CharacterTable's domain (R4, R72). -/
inductive Glyph where
  | d0 | d1 | d2 | d3 | d4 | d5 | d6 | d7 | d8 | d9 | dash | space
  deriving DecidableEq, Repr

/-- `CT_LETTERS` (R17, R72): the lit letters of each character whose set CD leaves to the table. The
space has no entry to choose: CD fixes it as "the all-off pattern". -/
structure CharacterTable where
  d0 : List Segment
  d1 : List Segment
  d2 : List Segment
  d3 : List Segment
  d4 : List Segment
  d5 : List Segment
  d6 : List Segment
  d7 : List Segment
  d8 : List Segment
  d9 : List Segment
  dash : List Segment
  deriving DecidableEq, Repr

/-- The three values U6 (R37) allows for what LE = 1 inside SWITCHMODE, in Normal mode, does to the
chain's display register: nothing (the reference receiver), a commit of the stages after the third shift
of the sequence, or of the stages after the fourth. -/
inductive SpecialCommit where
  | never
  | afterThird
  | afterFourth
  deriving DecidableEq, Repr

/-- The parameters of R5, and the two points of the reference receiver that the spec leaves to the
model (U6, U11). No step changes the configuration (R17; R125 "assumed never to happen"). -/
structure Config where
  /-- The width an `H(clkw)` event stands for; no rule depends on it (R5, U1). -/
  clockPulseWidth : Nat
  /-- The width an `H(lew)` event stands for; no rule depends on it (R5, U1). -/
  latchPulseWidth : Nat
  /-- `CT_LETTERS` (R72, U2). -/
  ctLetters : CharacterTable
  /-- `N_POSITIONS`, the number of chips of the chain, at least one by its type (R5: "natural number >= 1"); no rule of the block reads it (R5, U12). -/
  nPositions : ℕ+
  /-- `LE_SPECIAL_LEVEL`, the LE level before pulse 4 that selects Special (R86, U8). -/
  leSpecialLevel : Level
  /-- `IO_CAN_FAIL` (R112, U10). -/
  ioCanFail : Bool
  /-- `RESET_CLK` (R21, U13). -/
  resetClk : Level
  /-- `RESET_DATA` (R21, U13). -/
  resetData : Level
  /-- `RESET_LE` (R21, U13). -/
  resetLe : Level
  /-- What LE = 1 inside SWITCHMODE commits (R37, U6). -/
  specialCommit : SpecialCommit
  /-- The mode of the chain at power-up (R38, U11). -/
  powerUpMode : ChainMode
  deriving DecidableEq, Repr

/-- The two requesters (R9, R122): A is CD's Controller Loop, B its Input Dispatcher. -/
inductive Requester where
  | a
  | b
  deriving DecidableEq, Repr, Inhabited

/-- What the digital I/O collaborator answers to one line write (R7, R112): `ok`, or a failure, with
the level the line has afterwards, "either its old level or v" (U4). -/
inductive IoAnswer where
  | ok
  | failKeepsOld
  | failTakesNew
  deriving DecidableEq, Repr, Inhabited

/-- Free value (U4, U10): the collaborator's answer to a line write of which nothing is known. -/
opaque Config.freeIo : Nat → IoAnswer

/-- Free value (U3): which of two ready requesters goes first when nothing is known of it. -/
opaque Config.freeTurn : Nat → Requester

/-- Free value (R38, U5): the power-up content of stage `s` of the chain. -/
opaque Config.freeStage : Nat → Level

/-- Free value (R38, U5): the power-up content of bit `s` of the chain's display register. -/
opaque Config.freeDisp : Nat → Level

/-- Free value (R38, U5): the power-up content of bit `s` of the chain's configuration register. -/
opaque Config.freeCfg : Nat → Level

end Sys2Proof
end

