-- ==== Sys2Proof/Machine/Operands.lean ====
section
/-! DEFINITION. Every operand form: sequences and bytes (R6, R51), characters and the CharacterTable (R50, R52,
R70, R72), and the default configuration (R5). -/

namespace Sys2Proof.Machine

/-- `bits_of(pat)`: the sequence `[pat[0], ..., pat[7]]` (R6, R51). -/
def bitsOf (pat : Byte) : List Level :=
  [pat.getLsbD 0, pat.getLsbD 1, pat.getLsbD 2, pat.getLsbD 3,
   pat.getLsbD 4, pat.getLsbD 5, pat.getLsbD 6, pat.getLsbD 7]

/-- The sum over k of `bits[k] * 2^k`, as a natural number (R51). -/
def weightOf : List Level → Nat
  | [] => 0
  | b :: bs => b.toNat + 2 * weightOf bs

/-- `byte_of(bits)` (R51), the inverse of `bitsOf` on sequences of length 8. -/
def byteOf (bits : List Level) : Byte := BitVec.ofNat 8 (weightOf bits)

/-- The table character a code stands for, none for an unmapped code (R52): the ASCII codes of `0` to
`9`, `-` and space. -/
def glyphOf (ch : Byte) : Option Glyph :=
  match ch.toNat with
  | 0x30 => some .d0
  | 0x31 => some .d1
  | 0x32 => some .d2
  | 0x33 => some .d3
  | 0x34 => some .d4
  | 0x35 => some .d5
  | 0x36 => some .d6
  | 0x37 => some .d7
  | 0x38 => some .d8
  | 0x39 => some .d9
  | 0x2D => some .dash
  | 0x20 => some .space
  | _ => none

/-- A code is mapped when it is one of the twelve (R52, R74). -/
def isMapped (ch : Byte) : Bool := (glyphOf ch).isSome

/-- `CT_LETTERS[ch]` (R70, R72); the space lights nothing in every table. -/
def lettersOf (t : CharacterTable) : Glyph → List Segment
  | .d0 => t.d0
  | .d1 => t.d1
  | .d2 => t.d2
  | .d3 => t.d3
  | .d4 => t.d4
  | .d5 => t.d5
  | .d6 => t.d6
  | .d7 => t.d7
  | .d8 => t.d8
  | .d9 => t.d9
  | .dash => t.dash
  | .space => []

/-- `letter(0..7)`: the segment of each output OUT0 to OUT7 (R50). -/
def outputLetters : List Segment := [.b, .g, .c, .p, .d, .e, .f, .a]

/-- `encode(ch)` (R70): the pattern of a mapped character, the empty sequence of an unmapped one. -/
def encodeChar (t : CharacterTable) (ch : Byte) : List Level :=
  match glyphOf ch with
  | some g => outputLetters.map (fun l => decide (l ∈ lettersOf t g))
  | none => []

/-- The result of ENCODE as two bytes, `valid` then `pat` (R51, R59, R70). -/
def encodeResult (t : CharacterTable) (ch : Byte) : Byte × Byte :=
  if isMapped ch then (0x01#8, byteOf (encodeChar t ch)) else (0x00#8, 0x00#8)

/-- The default table of R72, the common seven-segment font.
PRESUMED (G1: general knowledge, not in the source); unsafe for claims about lamp patterns; log 2. -/
def defaultLetters : CharacterTable where
  d0 := [.a, .b, .c, .d, .e, .f]
  d1 := [.b, .c]
  d2 := [.a, .b, .d, .e, .g]
  d3 := [.a, .b, .c, .d, .g]
  d4 := [.b, .c, .f, .g]
  d5 := [.a, .c, .d, .f, .g]
  d6 := [.a, .c, .d, .e, .f, .g]
  d7 := [.a, .b, .c]
  d8 := [.a, .b, .c, .d, .e, .f, .g]
  d9 := [.a, .b, .c, .d, .f, .g]
  dash := [.g]

/-- The configuration with the default of every parameter (R5). DESIGN CHOICE for the parameters R5 calls
open (the widths, IO_CAN_FAIL); unsafe for claims that start at State.reset alone; log 2, 4 and 9. -/
def defaultConfig : Config where
  clockPulseWidth := 0
  latchPulseWidth := 0
  ctLetters := defaultLetters
  nPositions := 9
  leSpecialLevel := true
  ioCanFail := false
  resetClk := false
  resetData := false
  resetLe := false
  specialCommit := .never
  powerUpMode := .normal

end Sys2Proof.Machine
end

