-- ==== Sys2Proof/WellFormed.lean ====
section
/-! DEFINITION. Which commands have a byte form: the length byte of formats V and S holds 0 to 255 (R53). -/

namespace Sys2Proof

/-- The number of bits (format V) or of characters (format S) a command carries; 0 for the others. -/
def Instr.operandLength : Instr → Nat
  | .encode _ => 0
  | .sendbit _ => 0
  | .sendserial bits => bits.length
  | .latch => 0
  | .switchmode _ => 0
  | .setbrightness _ => 0
  | .render text => text.length
  | .enable => 0
  | .disable => 0

/-- A command that the byte form can carry: "the byte form caps them at 255, and a longer operand must
be split by the requester" (R53). Every other operand value is legal (R54, R58). -/
def Instr.wf (i : Instr) : Bool := decide (i.operandLength ≤ 255)

end Sys2Proof
end

