-- ==== Sys2Proof/Decode.lean ====
section
/-! DEFINITION. The byte form of commands (R53 to R57): a decoder, total on any bytes, that refuses an illegal
command by the reason of R110, and the encoder of the same formats. -/

namespace Sys2Proof

open Machine (bitsOf byteOf)

/-- The decoder's refusals (R57, R110), each with what R110 records of it. -/
inductive Illegal where
  /-- Code 2: opcode byte 0x00 or 0x0A to 0xFF; the opcode byte. -/
  | reservedOpcode (op : Byte)
  /-- Code 3: SENDBIT with a bit above bit 0, SWITCHMODE above 0x01; the operand byte. -/
  | badOperand (arg : Byte)
  /-- Code 4: a set unused bit in SENDSERIAL's last payload byte; that byte. -/
  | badPadding (payload : Byte)
  /-- Code 5: the bytes end inside a command; the number of bytes missing. -/
  | truncated (missing : Nat)
  deriving DecidableEq, Repr

/-- The code of R110; 0 is normal completion and 1 is `IOFailure`. -/
def Illegal.code : Illegal → Nat
  | .reservedOpcode _ => 2
  | .badOperand _ => 3
  | .badPadding _ => 4
  | .truncated _ => 5

/-- What the decoder makes of the bytes at the command pointer: a command or a refusal, and the bytes
after it. -/
inductive Decoded where
  | ok (i : Instr) (rest : List Byte)
  | illegal (reason : Illegal) (rest : List Byte)
  deriving DecidableEq, Repr

/-- The bytes after the command or the refused word (R20, R57, R113). -/
def Decoded.rest : Decoded → List Byte
  | .ok _ rest => rest
  | .illegal _ rest => rest

/-- Format B (R53): the operand byte. A missing one is `Truncated`, one byte short (R110). -/
def decodeArg (tail : List Byte) (k : Byte → List Byte → Decoded) : Decoded :=
  match tail with
  | [] => .illegal (.truncated 1) []
  | arg :: rest => k arg rest

/-- Formats V and S (R53): the length byte `n`, then `size n` bytes. Where the bytes end early the
refusal says how many are missing (R110). DEDUCED: a missing length byte counts as one missing byte,
since what it would have asked for is not known; safe; log 15. -/
def decodeBlock (size : Nat → Nat) (tail : List Byte) (k : Nat → List Byte → List Byte → Decoded) :
    Decoded :=
  match tail with
  | [] => .illegal (.truncated 1) []
  | n :: rest =>
    if rest.length < size n.toNat then .illegal (.truncated (size n.toNat - rest.length)) []
    else k n.toNat (rest.take (size n.toNat)) (rest.drop (size n.toNat))

/-- `ceil(n/8)`, the payload bytes of `n` bits (R53, R55). -/
def payloadSize (n : Nat) : Nat := (n + 7) / 8

/-- SENDBIT's operand (R54): bit 0, with `arg[7:1]` zero, else `BadOperand` (R57). -/
def decodeSendbit (arg : Byte) (rest : List Byte) : Decoded :=
  if arg = 0x00#8 then .ok (.sendbit false) rest
  else if arg = 0x01#8 then .ok (.sendbit true) rest
  else .illegal (.badOperand arg) rest

/-- SWITCHMODE's operand (R54): 0x00 Normal, 0x01 Special, else `BadOperand` (R57). -/
def decodeSwitchmode (arg : Byte) (rest : List Byte) : Decoded :=
  if arg = 0x00#8 then .ok (.switchmode .normal) rest
  else if arg = 0x01#8 then .ok (.switchmode .special) rest
  else .illegal (.badOperand arg) rest

/-- SENDSERIAL's operand (R54): `bits[i] = payload[i div 8][i mod 8]` for i below n; the unused high
bits of the last byte must be 0, else `BadPadding` with that byte (R57, R110). -/
def decodeSendserial (n : Nat) (payload rest : List Byte) : Decoded :=
  if ((payload.flatMap bitsOf).drop n).all (fun b => !b) then
    .ok (.sendserial ((payload.flatMap bitsOf).take n)) rest
  else .illegal (.badPadding (payload.getLastD 0)) rest

/-- The decoder: opcode map of R56, formats of R53, refusals of R57 in the order of R115 (opcode, then
missing bytes, then illegal values). A reserved opcode consumes its one byte (R57). There is no
command in an empty sequence; the answer there is `Truncated`, one byte missing (log 15). -/
def decode : List Byte → Decoded
  | [] => .illegal (.truncated 1) []
  | op :: tail =>
    match op.toNat with
    | 0x01 => decodeArg tail (fun arg rest => .ok (.encode arg) rest)
    | 0x02 => decodeArg tail decodeSendbit
    | 0x03 => decodeBlock payloadSize tail decodeSendserial
    | 0x04 => .ok .latch tail
    | 0x05 => decodeArg tail decodeSwitchmode
    | 0x06 => decodeArg tail (fun arg rest => .ok (.setbrightness arg) rest)
    | 0x07 => decodeBlock (fun n => n) tail (fun _ chars rest => .ok (.render chars) rest)
    | 0x08 => .ok .enable tail
    | 0x09 => .ok .disable tail
    | _ => .illegal (.reservedOpcode op) tail

/-- The payload bytes of a bit sequence, `k` of them (R54): sequence index i at byte i div 8, bit
i mod 8, unused high bits 0. -/
def packBits : Nat → List Level → List Byte
  | 0, _ => []
  | k + 1, bits => byteOf (bits.take 8) :: packBits k (bits.drop 8)

/-- The opcode byte of each command (R56). -/
def opcodeOf : Instr → Byte
  | .encode _ => 0x01#8
  | .sendbit _ => 0x02#8
  | .sendserial _ => 0x03#8
  | .latch => 0x04#8
  | .switchmode _ => 0x05#8
  | .setbrightness _ => 0x06#8
  | .render _ => 0x07#8
  | .enable => 0x08#8
  | .disable => 0x09#8

/-- The operand bytes of each command (R53, R54). -/
def operandBytes : Instr → List Byte
  | .encode ch => [ch]
  | .sendbit bit => [if bit then 0x01#8 else 0x00#8]
  | .sendserial bits => BitVec.ofNat 8 bits.length :: packBits (payloadSize bits.length) bits
  | .latch => []
  | .switchmode mode => [match mode with | .normal => 0x00#8 | .special => 0x01#8]
  | .setbrightness code => [code]
  | .render text => BitVec.ofNat 8 text.length :: text
  | .enable => []
  | .disable => []

/-- The bytes of a well-formed command (R53 to R56). -/
def encode (i : Instr) : List Byte := opcodeOf i :: operandBytes i

/-- The first `k` bytes of an instruction numbered as the opcode table numbers it: the first byte is
bits 7..0. -/
def wordBytes : Nat → Nat → List Byte
  | 0, _ => []
  | k + 1, w => BitVec.ofNat 8 w :: wordBytes k (w / 256)

/-- The bytes of the instruction whose low `nbits` bits are `w` and whose further bits, up to the
longest instruction (2 + 255 bytes, R55), are zero. -/
def tableBytes (nbits w : Nat) : List Byte :=
  wordBytes ((nbits + 7) / 8) (w % 2 ^ nbits) ++ List.replicate 257 0x00#8

/-- The instruction the decoder reads from a row of the opcode table. -/
def decodeTableWord (nbits w : Nat) : Option Instr :=
  match decode (tableBytes nbits w) with
  | .ok i _ => some i
  | .illegal _ _ => none

/-- Exactly the bytes that instruction occupies. -/
def tableCommandBytes (nbits w : Nat) : List Byte :=
  (tableBytes nbits w).take ((tableBytes nbits w).length - (decode (tableBytes nbits w)).rest.length)

end Sys2Proof
end

