-- ==== Sys2Proof/Machine/Lines.lean ====
section
/-! DEFINITION. The four line latches (R10) and the events of the trace (R8). -/

namespace Sys2Proof.Machine

/-- The four lines (R10). -/
inductive Line where
  | clk
  | data
  | le
  | oe
  deriving DecidableEq, Repr

/-- Which duration a hold waits out (R7): `clkw` is clockPulseWidth, `lew` is latchPulseWidth. -/
inductive Width where
  | clkw
  | lew
  deriving DecidableEq, Repr

/-- The events of the trace (R8): `W(line, level)` and `H(w)`. -/
inductive Event where
  | write (line : Line) (v : Level)
  | hold (w : Width)
  deriving DecidableEq, Repr

/-- The four one-bit output latches (R10); OE = 1 blanks the chain's outputs (R11). -/
structure Lines where
  clk : Level
  data : Level
  le : Level
  oe : Level
  deriving DecidableEq, Repr

/-- `get()`: the level last written to a line (R10, D19). -/
def Lines.get (ls : Lines) : Line → Level
  | .clk => ls.clk
  | .data => ls.data
  | .le => ls.le
  | .oe => ls.oe

/-- `set(v)` on one line; the four latches are independent (R10). -/
def Lines.set (ls : Lines) : Line → Level → Lines
  | .clk, v => { ls with clk := v }
  | .data, v => { ls with data := v }
  | .le, v => { ls with le := v }
  | .oe, v => { ls with oe := v }

end Sys2Proof.Machine
end

