-- ==== Sys2Proof/Machine/Chain.lean ====
section
/-! DEFINITION. The chain of driver chips as the spec's reference receiver (R31 to R38): what it stores and what
each transition of a line does to it. A claim about the block's trace never depends on it. -/

namespace Sys2Proof.Machine

/-- The chain (R31): `8 x N_POSITIONS` stages, stage 0 fed by DATA, the display and the configuration
register of the same size, the mode, and the recogniser's samples (R36). Index k of chip c is bit
`8c + k` of each list. -/
structure Chain where
  /-- `STAGE[s]`, s from 0. -/
  stage : List Level
  /-- `DISP[s]`. -/
  disp : List Level
  /-- `CFG[s]`; recorded, no meaning given (R35, U7). -/
  cfg : List Level
  /-- `MODE`. -/
  mode : ChainMode
  /-- The last five (OE, LE) samples taken at 0-to-1 transitions of CLK, newest first (R36). -/
  samples : List (Level × Level)
  deriving DecidableEq, Repr

/-- The chain when the block is created (R38): every bit free, the mode of the configuration.
DESIGN CHOICE: the recogniser has taken no sample yet; unsafe; log 3, 4 and 8. -/
def powerUpChain (c : Config) : Chain where
  stage := (List.range (8 * c.nPositions)).map Config.freeStage
  disp := (List.range (8 * c.nPositions)).map Config.freeDisp
  cfg := (List.range (8 * c.nPositions)).map Config.freeCfg
  mode := c.powerUpMode
  samples := []

/-- One clock pulse's shift (R32): every stage moves up by one, the old last stage is lost, and
stage 0 takes `d`. -/
def shiftIn (d : Level) (stage : List Level) : List Level := (d :: stage).dropLast

/-- The mode the recogniser sets when the last five samples, newest first, are the pattern of R36
(oldest first: (1,0), (0,0), (1,0), (1,L), (1,0)); none for any other samples. -/
def recognise (leSpecialLevel : Level) (samples : List (Level × Level)) : Option ChainMode :=
  match samples with
  | [(true, false), (true, l), (true, false), (false, false), (true, false)] =>
    some (if l = leSpecialLevel then .special else .normal)
  | _ => none

/-- The chain at a 0-to-1 transition of CLK: it shifts with the level of DATA (R32) and samples
(OE, LE) for the mode switch (R36). -/
def Chain.clockRise (c : Config) (ls : Lines) (ch : Chain) : Chain :=
  { ch with
    stage := shiftIn ls.data ch.stage
    samples := ((ls.oe, ls.le) :: ch.samples).take 5
    mode := (recognise c.leSpecialLevel (((ls.oe, ls.le) :: ch.samples).take 5)).getD ch.mode }

/-- The commit of a LATCH pulse (R33, R35): all stages at once into the register the mode selects. -/
def Chain.commit (ch : Chain) : Chain :=
  match ch.mode with
  | .normal => { ch with disp := ch.stage }
  | .special => { ch with cfg := ch.stage }

/-- What a line write is for. The levels alone do not tell the pulse of LATCH, on which the reference
receiver commits (R33), from the LE levels around pulse 4 of SWITCHMODE, on which it does not (R37). -/
inductive Purpose where
  /-- A write of LE in the pulse of LATCH (R84). -/
  | latchPulse
  /-- A write of LE just before or just after pulse 4 of SWITCHMODE (R86). -/
  | modeLevel
  /-- Any other write. -/
  | plain
  deriving DecidableEq, Repr

/-- LE rising before pulse 4 of SWITCHMODE or falling after it (R37, U6): where the configuration says
that the chain takes this edge as a commit, and the mode is Normal, the display register takes the
stages: at the rising edge those after the third shift, at the falling edge those after the fourth. -/
def Chain.switchEdge (c : Config) (edge : SpecialCommit) (ch : Chain) : Chain :=
  if c.specialCommit = edge ∧ ch.mode = .normal then { ch with disp := ch.stage } else ch

/-- What the chain does when a line with the levels `ls` is written with `v` (R32, R33, R36, R37). Only
transitions act: "A write CLK <- 1 while CLK is already 1 is no transition and shifts nothing". DATA
and OE act on nothing by themselves (R34). -/
def Chain.react (c : Config) (p : Purpose) (ls : Lines) (line : Line) (v : Level) (ch : Chain) : Chain :=
  match line with
  | .clk => if !ls.clk && v then ch.clockRise c ls else ch
  | .le =>
    match p, ls.le, v with
    | .latchPulse, false, true => ch.commit
    | .modeLevel, false, true => ch.switchEdge c .afterThird
    | .modeLevel, true, false => ch.switchEdge c .afterFourth
    | _, _, _ => ch
  | .data => ch
  | .oe => ch

/-- `LAMP[s]` (R34): the display register when OE = 0, all off when OE = 1. -/
def Chain.lamps (oe : Level) (ch : Chain) : List Level :=
  if oe then List.replicate ch.disp.length false else ch.disp

end Sys2Proof.Machine
end

