-- ==== Sys2Proof/Machine/State.lean ====
section
/-! DEFINITION. The machine's state as plain data, what a step can stop with, and the state after reset. -/

namespace Sys2Proof.Machine

/-- What a requester gets back from the block (R125): ENCODE's two result bytes (R59), or the verdict
`invalid` with its reason for a refused command (R113). Every other command returns nothing. -/
inductive Answer where
  | pattern (valid pat : Byte)
  | invalid (reason : Illegal)
  deriving DecidableEq, Repr

/-- One requester (R20, R122): its command list as a byte stream (R53), its command pointer, and what it
has been answered, oldest first. -/
structure Port where
  /-- The whole command list, from its first command. -/
  commands : List Byte
  /-- `CP`, the index of the next command of that list (R20); it counts commands, not bytes. -/
  cp : Nat
  /-- The answers received so far. -/
  answers : List Answer
  deriving DecidableEq, Repr

/-- A sequence of free values to be drawn: the ones that are known, in order, and then opaque ones, of
which `used` have been drawn. It holds for every `known` and every `used`. -/
structure Draws (α : Type) where
  known : List α
  used : Nat
  deriving DecidableEq, Repr

/-- The machine. The block's own state is R18's list; the chain is R31's; the configuration is R5's;
`io` and `turns` are free values (U3, U4, U10). -/
structure State where
  /-- The parameters of R5; no step changes them. -/
  config : Config
  /-- `CLK`, `DATA`, `LE`, `OE` (R10). -/
  lines : Lines
  /-- `GUARD` (R12): 1 while a command is being executed. -/
  guard : Bool
  /-- `FATAL` (R13): sticky, set by a failed line write. -/
  fatal : Bool
  /-- The info of `IOFailure` (R110, R112): the line and the level of the failed write. -/
  failure : Option (Line × Level)
  /-- `SAVE_SM` (R16). -/
  saveSm : Level
  /-- `SAVE_SB` (R16). -/
  saveSb : Level
  /-- `TRACE` (R19), oldest event first. -/
  trace : List Event
  /-- The chain of driver chips (R31). -/
  chain : Chain
  /-- Requester A. -/
  portA : Port
  /-- Requester B. -/
  portB : Port
  /-- The requester whose command is at the engine, or was last: the model's own field (log 7). -/
  issuer : Requester
  /-- The collaborator's coming answers to line writes, drawn when IO_CAN_FAIL is 1 (R112). -/
  io : Draws IoAnswer
  /-- The coming choices between two ready requesters (R42). -/
  turns : Draws Requester
  deriving DecidableEq, Repr

/-- Why a step could stop with a fault: it never does. The spec's one fault, `IOFailure`, is entered
(R112, R116: FATAL := 1 and the command stops) and so is a next state; a command that cannot start
waits (R42, R115). Safe: nothing is stopped that the spec lets go on. -/
inductive Fault : Type
  deriving DecidableEq, Repr

/-- Why a step could be refused by the model. -/
inductive Refusal where
  /-- Raised by an arm of `exec` whose instruction has no meaning yet; safe. No arm raises it. -/
  | notModelled (mnemonic : String)
  deriving DecidableEq, Repr

/-- A requester that has been given no command yet (R20: `CP` is 0 at reset). -/
def Port.empty : Port where
  commands := []
  cp := 0
  answers := []

/-- The state after reset under a configuration (R21, R130): OE = 1 is CD's, the other levels are the
configuration's; no event; the chain as `powerUpChain` says. DESIGN CHOICE: the save registers, the
issuer and the draws start at 0, A and nothing known; unsafe; log 1, 7, 10 and 11. -/
def State.resetWith (c : Config) : State where
  config := c
  lines := { clk := c.resetClk, data := c.resetData, le := c.resetLe, oe := true }
  guard := false
  fatal := false
  failure := none
  saveSm := false
  saveSb := false
  trace := []
  chain := powerUpChain c
  portA := Port.empty
  portB := Port.empty
  issuer := .a
  io := { known := [], used := 0 }
  turns := { known := [], used := 0 }

/-- The state after reset (R21) with every parameter at its default. -/
def State.reset : State := State.resetWith defaultConfig

end Sys2Proof.Machine
end

