-- ==== Sys2Proof/Machine/Flags.lean ====
section
/-! DEFINITION. The status bits. The block has no condition codes (R14): GUARD and FATAL are the only ones, and
they only gate whether a command starts. -/

namespace Sys2Proof.Machine

/-- The start condition (R42, R115): "a command starts only when GUARD = 0 and FATAL = 0". -/
def State.canStart (s : State) : Bool := !s.guard && !s.fatal

end Sys2Proof.Machine
end

