-- ==== Sys2Proof/Machine/Ops.lean ====
section
/-! DEFINITION. The shared operations: draws of free values, the primitives of R7, entering `IOFailure` (R112),
a command under the guard (R42), and what the requester gets (R20, R59, R113). -/

namespace Sys2Proof.Machine

/-- The next free value. -/
def Draws.peek {α : Type} (free : Nat → α) (d : Draws α) : α :=
  match d.known with
  | x :: _ => x
  | [] => free d.used

/-- The draws after one has been made. -/
def Draws.next {α : Type} (d : Draws α) : Draws α :=
  match d.known with
  | _ :: xs => { d with known := xs }
  | [] => { d with used := d.used + 1 }

/-- The `k`-th coming free value, counted from 0. -/
def Draws.nth {α : Type} (free : Nat → α) : Nat → Draws α → α
  | 0, d => d.peek free
  | k + 1, d => Draws.nth free k d.next

/-- The collaborator's answer to the coming line write (R7): "io = ok always when IO_CAN_FAIL = false". -/
def State.ioAnswer (s : State) : IoAnswer :=
  if s.config.ioCanFail then s.io.peek Config.freeIo else .ok

/-- The state after that answer has been drawn; nothing is drawn when IO_CAN_FAIL is 0. -/
def State.drawIo (s : State) : State :=
  if s.config.ioCanFail then { s with io := s.io.next } else s

/-- A line write that the collaborator performs (R7): the latch takes `v`, the event is appended, and
the chain sees the transition. -/
def State.drive (p : Purpose) (line : Line) (v : Level) (s : State) : State :=
  { s with
    lines := s.lines.set line v
    trace := s.trace ++ [.write line v]
    chain := s.chain.react s.config p s.lines line v }

/-- Taking `IOFailure(line, v)` (R112, R116), the block's one exception: FATAL := 1 with the pair
recorded; no event; GUARD, the other lines, the chain and the issuer's `CP` as they are; the failed
line at its old level or at `v`. Nothing is saved and nothing returns from it (R116, R117).
DEDUCED from R112 (5): the chain does not react to the failed write; unsafe; log 13. -/
def State.raiseIoFailure (line : Line) (v : Level) (takesNew : Bool) (s : State) : State :=
  { s with
    fatal := true
    failure := some (line, v)
    lines := if takesNew then s.lines.set line v else s.lines }

/-- The event code of R110 the block is in: 1 after an `IOFailure`, 0 otherwise; a refused word's code
is `Illegal.code`. -/
def State.eventCode (s : State) : Nat := if s.fatal then 1 else 0

/-- `line <- v` (R7). The state is one in which FATAL = 0; `perform` sees to that. -/
def State.writeLine (p : Purpose) (line : Line) (v : Level) (s : State) : State :=
  match s.ioAnswer with
  | .ok => s.drawIo.drive p line v
  | .failKeepsOld => s.drawIo.raiseIoFailure line v false
  | .failTakesNew => s.drawIo.raiseIoFailure line v true

/-- One line of a command's rule. -/
inductive Act where
  /-- `line <- v`. -/
  | line (l : Line) (v : Level)
  /-- `LE <- v` as part of the pulse of LATCH, the one the chain commits on (R33). -/
  | latchPulse (v : Level)
  /-- `LE <- v` just before or just after pulse 4 of SWITCHMODE (R86; R37 on what the chain makes of it). -/
  | modeLevel (v : Level)
  /-- `hold(w)`. -/
  | hold (w : Width)
  /-- `SAVE_SM <- OE` (R86): a `get()`, no event, cannot fail (R10, D19). -/
  | saveSm
  /-- `OE <- SAVE_SM` (R86). -/
  | restoreSm
  /-- `SAVE_SB <- OE` (R88). -/
  | saveSb
  /-- `OE <- SAVE_SB` (R88). -/
  | restoreSb
  deriving DecidableEq, Repr

/-- What one line of a rule does (R7, R16). -/
def State.act (a : Act) (s : State) : State :=
  match a with
  | .line l v => s.writeLine .plain l v
  | .latchPulse v => s.writeLine .latchPulse .le v
  | .modeLevel v => s.writeLine .modeLevel .le v
  | .hold w => { s with trace := s.trace ++ [.hold w] }
  | .saveSm => { s with saveSm := s.lines.oe }
  | .restoreSm => s.writeLine .plain .oe s.saveSm
  | .saveSb => { s with saveSb := s.lines.oe }
  | .restoreSb => s.writeLine .plain .oe s.saveSb

/-- The lines of a rule in order (R44). Once a write has failed nothing further happens (R7: "if
FATAL = 1 then no step"; R112 (2)). -/
def perform : List Act → State → State
  | [], s => s
  | a :: as, s => if s.fatal then s else perform as (s.act a)

/-- The record of a requester. -/
def State.port (s : State) : Requester → Port
  | .a => s.portA
  | .b => s.portB

/-- The state with a requester's record replaced. -/
def State.setPort (r : Requester) (p : Port) (s : State) : State :=
  match r with
  | .a => { s with portA := p }
  | .b => { s with portB := p }

/-- The issuer's `CP` moves past its command (R20). -/
def State.advance (s : State) : State :=
  s.setPort s.issuer { s.port s.issuer with cp := (s.port s.issuer).cp + 1 }

/-- An answer to the issuer, and its `CP` moves past the command (R59, R113). -/
def State.answer (a : Answer) (s : State) : State :=
  s.setPort s.issuer
    { s.port s.issuer with
      cp := (s.port s.issuer).cp + 1
      answers := (s.port s.issuer).answers ++ [a] }

/-- The end of a command (R12, R20, R112): GUARD back to 0 and `CP` advanced; after a failed write
neither happens. -/
def State.finish (s : State) : State :=
  if s.fatal then s else { s with guard := false }.advance

/-- One command under the guard (R42): it starts when GUARD = 0 and FATAL = 0, sets GUARD, appends its
events, clears GUARD. One that cannot start waits: it is neither refused nor changed (R42, R115; log 14). -/
def State.underGuard (script : List Act) (s : State) : State :=
  if s.canStart then (perform script { s with guard := true }).finish else s

end Sys2Proof.Machine
end

