-- ==== Sys2Proof/Machine/Transport.lean ====
section
/-! DEFINITION. The serial transport's commands: SENDBIT, SENDSERIAL, LATCH, SWITCHMODE, SETBRIGHTNESS
(41_serial_transport), each as the script of its rule. -/

namespace Sys2Proof.Machine

/-- `pulseClock()` (R7): CLK <- 1; hold(clkw); CLK <- 0. -/
def pulseClock : List Act := [.line .clk true, .hold .clkw, .line .clk false]

/-- The lines of SENDBIT (R80). -/
def sendBitScript (bit : Level) : List Act := .line .data bit :: pulseClock

/-- The lines of SENDSERIAL (R82): SENDBIT of every element, from the last index down to 0. -/
def sendSerialScript : List Level → List Act
  | [] => []
  | b :: bs => sendSerialScript bs ++ sendBitScript b

/-- The lines of LATCH (R84). -/
def latchScript : List Act := [.latchPulse true, .hold .lew, .latchPulse false]

/-- The level LE has at pulse 4 of SWITCHMODE (R86): `LE_SPECIAL_LEVEL` for Special, the other one for
Normal. -/
def levelFor (leSpecialLevel : Level) : ChainMode → Level
  | .normal => !leSpecialLevel
  | .special => leSpecialLevel

/-- The lines of SWITCHMODE (R86). -/
def switchModeScript (leSpecialLevel : Level) (mode : ChainMode) : List Act :=
  [.saveSm, .line .le false, .line .oe true] ++ pulseClock ++
  [.line .oe false] ++ pulseClock ++
  [.line .oe true] ++ pulseClock ++
  [.modeLevel (levelFor leSpecialLevel mode)] ++ pulseClock ++
  [.modeLevel false] ++ pulseClock ++
  [.restoreSm]

/-- `BRIGHTNESS_REPEAT` (R4, R89 (b)): fixed, it does not follow the chain's length. -/
def brightnessRepeat : Nat := 9

/-- A script repeated. -/
def repeatScript : Nat → List Act → List Act
  | 0, _ => []
  | n + 1, script => script ++ repeatScript n script

/-- The lines of SETBRIGHTNESS (R88). -/
def setBrightnessScript (leSpecialLevel : Level) (code : Byte) : List Act :=
  [.saveSb] ++ switchModeScript leSpecialLevel .special ++
  repeatScript brightnessRepeat (sendSerialScript (bitsOf code)) ++
  latchScript ++
  [.restoreSb] ++
  switchModeScript leSpecialLevel .normal

/-- SENDBIT bit (R80). -/
def execSendbit (bit : Level) (s : State) : Host.Outcome State Fault Refusal :=
  .next (s.underGuard (sendBitScript bit))

/-- SENDSERIAL bits (R82). -/
def execSendserial (bits : List Level) (s : State) : Host.Outcome State Fault Refusal :=
  .next (s.underGuard (sendSerialScript bits))

/-- LATCH (R84). -/
def execLatch (s : State) : Host.Outcome State Fault Refusal :=
  .next (s.underGuard latchScript)

/-- SWITCHMODE mode (R86). -/
def execSwitchmode (mode : ChainMode) (s : State) : Host.Outcome State Fault Refusal :=
  .next (s.underGuard (switchModeScript s.config.leSpecialLevel mode))

/-- SETBRIGHTNESS code (R88). -/
def execSetbrightness (code : Byte) (s : State) : Host.Outcome State Fault Refusal :=
  .next (s.underGuard (setBrightnessScript s.config.leSpecialLevel code))

end Sys2Proof.Machine
end

