-- ==== Sys2Proof/Machine/Display.lean ====
section
/-! DEFINITION. The display driver's commands: RENDER, ENABLE, DISABLE (42_display_driver). -/

namespace Sys2Proof.Machine

/-- The shifting lines of RENDER (R100): SENDSERIAL of every character's pattern, last character first;
an unmapped character sends nothing. -/
def renderShiftScript (t : CharacterTable) : List Byte → List Act
  | [] => []
  | ch :: chs => renderShiftScript t chs ++ sendSerialScript (encodeChar t ch)

/-- The lines of RENDER (R100): the frame, then one latch pulse, also when nothing was shifted (D22). -/
def renderScript (t : CharacterTable) (text : List Byte) : List Act :=
  renderShiftScript t text ++ latchScript

/-- RENDER text (R100). -/
def execRender (text : List Byte) (s : State) : Host.Outcome State Fault Refusal :=
  .next (s.underGuard (renderScript s.config.ctLetters text))

/-- ENABLE (R102): OE <- 0. -/
def execEnable (s : State) : Host.Outcome State Fault Refusal :=
  .next (s.underGuard [.line .oe false])

/-- DISABLE (R103): OE <- 1. -/
def execDisable (s : State) : Host.Outcome State Fault Refusal :=
  .next (s.underGuard [.line .oe true])

end Sys2Proof.Machine
end

