-- ==== Sys2Proof/Machine/Encoder.lean ====
section
/-! DEFINITION. The segment encoder's command: ENCODE (40_segment_encoder). -/

namespace Sys2Proof.Machine

/-- ENCODE ch (R70): the pair (valid, pat) to the issuer, whatever GUARD and FATAL are; no line, no
event, no draw. -/
def execEncode (ch : Byte) (s : State) : Host.Outcome State Fault Refusal :=
  .next (s.answer
    (.pattern (encodeResult s.config.ctLetters ch).1 (encodeResult s.config.ctLetters ch).2))

end Sys2Proof.Machine
end

