-- ==== Sys2Proof/Machine/Dispatch.lean ====
section
/-! DEFINITION. The meaning of each command, one arm per constructor of Instr. -/

namespace Sys2Proof.Machine

def exec (i : Instr) (s : State) : Host.Outcome State Fault Refusal :=
  match i with
  | .encode ch => Sys2Proof.Machine.execEncode ch s
  | .sendbit bit => Sys2Proof.Machine.execSendbit bit s
  | .sendserial bits => Sys2Proof.Machine.execSendserial bits s
  | .latch => Sys2Proof.Machine.execLatch s
  | .switchmode mode => Sys2Proof.Machine.execSwitchmode mode s
  | .setbrightness code => Sys2Proof.Machine.execSetbrightness code s
  | .render text => Sys2Proof.Machine.execRender text s
  | .enable => Sys2Proof.Machine.execEnable s
  | .disable => Sys2Proof.Machine.execDisable s

end Sys2Proof.Machine
end

