-- ==== Sys2Proof/Machine/Requesters.lean ====
section
/-! DEFINITION. How a command comes to the engine: the command pointer (R20), the decoder's verdict (R113), the
start condition and the free order of the two requesters (R42, R115). -/

namespace Sys2Proof.Machine

/-- The bytes from the `n`-th command of a list on (R20): "the byte offset of a command is the sum of the
lengths of the commands before it"; a refused word counts as one command (R113). -/
def bytesFrom : Nat → List Byte → List Byte
  | 0, bytes => bytes
  | n + 1, bytes => bytesFrom n (match bytes with | [] => [] | b :: bs => (decode (b :: bs)).rest)

/-- The bytes at a requester's command pointer; empty when it has finished its list. -/
def State.pending (r : Requester) (s : State) : List Byte :=
  bytesFrom (s.port r).cp (s.port r).commands

/-- ENCODE is the one command that needs no guard and is answered even when FATAL = 1 (R70). -/
def needsGuard : Instr → Bool
  | .encode _ => false
  | .sendbit _ => true
  | .sendserial _ => true
  | .latch => true
  | .switchmode _ => true
  | .setbrightness _ => true
  | .render _ => true
  | .enable => true
  | .disable => true

/-- A command that starts now (R115): the others wait. -/
def State.starts (i : Instr) (s : State) : Bool := !needsGuard i || s.canStart

/-- A requester that the next step can serve: it has a word at its pointer, and the word is one the
decoder refuses (R115: the decoder comes first) or a command that starts now. -/
def State.ready (r : Requester) (s : State) : Bool :=
  match s.pending r with
  | [] => false
  | b :: bs =>
    match decode (b :: bs) with
    | .ok i _ => s.starts i
    | .illegal _ _ => true

/-- What the next step serves. -/
inductive Fetched where
  /-- No requester can be served: the engine is idle (R124, R130), or every command waits (R42). -/
  | nothing
  /-- A decoded command at the engine. -/
  | command (i : Instr) (s : State)
  /-- A refused word, the verdict given. -/
  | refusedWord (s : State)
  deriving DecidableEq, Repr

/-- A requester's word comes to the decoder (R115); a refused one gets its verdict and `CP` moves past
it, and nothing else changes (R113). -/
def State.serve (r : Requester) (s : State) : Fetched :=
  match decode (s.pending r) with
  | .ok i _ => .command i { s with issuer := r }
  | .illegal reason _ => .refusedWord ({ s with issuer := r }.answer (.invalid reason))

/-- The requester served next: the ready one, or, when both are, a free choice (R42, U3). -/
def State.fetch (s : State) : Fetched :=
  match s.ready .a, s.ready .b with
  | false, false => .nothing
  | true, false => s.serve .a
  | false, true => s.serve .b
  | true, true => { s with turns := s.turns.next }.serve (s.turns.peek Config.freeTurn)

/-- Loading one command from outside: A's list is exactly these bytes, its pointer at the start, and B
has no command, so that the next step serves A. -/
def State.loadCommand (bytes : List Byte) (s : State) : State :=
  { s with
    portA := { s.portA with commands := bytes, cp := 0 }
    portB := { s.portB with commands := [] } }

end Sys2Proof.Machine
end

