-- ==== Sys2Proof/Machine/Step.lean ====
section
/-! DEFINITION. One step of the machine: one command of one requester, start to end (R9, R42), or one refused
word (R113), or, when nothing can be served, a step that changes nothing (log 14). -/

namespace Sys2Proof.Machine

/-- The step. -/
def step (s : State) : Host.Outcome State Fault Refusal :=
  match s.fetch with
  | .nothing => .next s
  | .command i t => exec i t
  | .refusedWord t => .next t

/-- The state in which the next step runs the instruction of a row of the opcode table (log 5). -/
def State.withFetchWord (s : State) (nbits w : Nat) : State :=
  s.loadCommand (tableCommandBytes nbits w)

end Sys2Proof.Machine
end

