-- ==== Sys2Proof/Safety.lean ====
section
/-! DEFINITION. The terms claims are stated in: the event lists of the commands as the spec writes them out, what
the observer reads off a trace, the premises and the invariants of a run. -/

namespace Sys2Proof.Machine

/-! ### The event lists (41_serial_transport and 42_display_driver, "short forms") -/

/-- `c1 hc c0`. -/
def clockEvents : List Event := [.write .clk true, .hold .clkw, .write .clk false]

/-- `d<bit> c1 hc c0` (R80). -/
def sendBitEvents (bit : Level) : List Event := .write .data bit :: clockEvents

/-- The events of SENDSERIAL (R82): those of `reverse(bits)`, one SENDBIT after the other. -/
def serialEvents (bits : List Level) : List Event := bits.reverse.flatMap sendBitEvents

/-- `l1 hl l0` (R84). -/
def latchEvents : List Event := [.write .le true, .hold .lew, .write .le false]

/-- The 22 events of SWITCHMODE (R86): `level` is LE's level at pulse 4, `oe` the level restored. -/
def switchModeEvents (level oe : Level) : List Event :=
  [.write .le false, .write .oe true] ++ clockEvents ++
  .write .oe false :: clockEvents ++
  .write .oe true :: clockEvents ++
  .write .le level :: clockEvents ++
  .write .le false :: clockEvents ++ [.write .oe oe]

/-- The 336 events of SETBRIGHTNESS (R88): `special` is LE_SPECIAL_LEVEL, `oe` OE at the start. -/
def brightnessEvents (special oe : Level) (code : Byte) : List Event :=
  switchModeEvents special oe ++ (List.replicate 9 (serialEvents (bitsOf code))).flatten ++
  latchEvents ++ .write .oe oe :: switchModeEvents (!special) oe

/-- `encode(u[0]) ++ ... ++ encode(u[m-1])` over the mapped characters of a text (R101). -/
def textPatterns (t : CharacterTable) (text : List Byte) : List Level := text.flatMap (encodeChar t)

/-- The events of RENDER (R100): SENDSERIAL of each pattern, last character first, then LATCH. -/
def renderEvents (t : CharacterTable) (text : List Byte) : List Event :=
  text.reverse.flatMap (fun ch => serialEvents (encodeChar t ch)) ++ latchEvents

/-- The events a command appends when no write fails, from a state with OE at the level `oe`. -/
def commandEvents (c : Config) (oe : Level) : Instr → List Event
  | .encode _ => []
  | .sendbit bit => sendBitEvents bit
  | .sendserial bits => serialEvents bits
  | .latch => latchEvents
  | .switchmode .normal => switchModeEvents (!c.leSpecialLevel) oe
  | .switchmode .special => switchModeEvents c.leSpecialLevel oe
  | .setbrightness code => brightnessEvents c.leSpecialLevel oe code
  | .render text => renderEvents c.ctLetters text
  | .enable => [.write .oe false]
  | .disable => [.write .oe true]

/-! ### What an observer reads off a trace -/

/-- Whether an event is a line write. -/
def Event.isWrite : Event → Bool
  | .write _ _ => true
  | .hold _ => false

/-- The number of line writes among some events. -/
def writesIn (evs : List Event) : Nat := evs.countP Event.isWrite

/-- The number of writes of a level to a line among some events (R91). -/
def timesWritten (line : Line) (v : Level) (evs : List Event) : Nat := evs.count (.write line v)

/-- The number of 0-to-1 transitions of a line over some events, from a level of it (R91). -/
def rises (line : Line) (from_ : Level) : List Event → Nat
  | [] => 0
  | .write l v :: evs =>
    if l = line then (if !from_ && v then 1 else 0) + rises line v evs else rises line from_ evs
  | .hold _ :: evs => rises line from_ evs

/-- The levels written to a line, in order (R82). -/
def levelsOn (line : Line) (evs : List Event) : List Level :=
  evs.filterMap (fun e => match e with | .write l v => if l = line then some v else none | .hold _ => none)

/-- The levels of the lines after some events. -/
def replay (ls : Lines) : List Event → Lines
  | [] => ls
  | .write l v :: evs => replay (ls.set l v) evs
  | .hold _ :: evs => replay ls evs

/-- The duration a hold waits out (R5, R7). -/
def widthOf (c : Config) : Width → Nat
  | .clkw => c.clockPulseWidth
  | .lew => c.latchPulseWidth

/-- The least duration of some events (R132). -/
def leastDuration (c : Config) (evs : List Event) : Nat :=
  evs.count (.hold .clkw) * c.clockPulseWidth + evs.count (.hold .lew) * c.latchPulseWidth

/-- The waveform of a trace from some levels (R8): without the writes that make no transition and
without the holds of zero width. -/
def waveform (c : Config) (ls : Lines) : List Event → List Event
  | [] => []
  | .write l v :: evs =>
    if ls.get l = v then waveform c ls evs else .write l v :: waveform c (ls.set l v) evs
  | .hold w :: evs => if widthOf c w = 0 then waveform c ls evs else .hold w :: waveform c ls evs

/-- No write of DATA while CLK is at 1 (R81), from a CLK level. -/
def dataStable (clk : Level) : List Event → Bool
  | [] => true
  | .write .clk v :: evs => dataStable v evs
  | .write .data _ :: evs => !clk && dataStable clk evs
  | .write .le _ :: evs => dataStable clk evs
  | .write .oe _ :: evs => dataStable clk evs
  | .hold _ :: evs => dataStable clk evs

/-! ### The collaborator's answers -/

/-- The collaborator's answer to the `k`-th coming line write (R7, R112). -/
def State.ioAnswerAt (k : Nat) (s : State) : IoAnswer :=
  if s.config.ioCanFail then s.io.nth Config.freeIo k else .ok

/-- The collaborator performs the coming line writes that some events take. -/
abbrev State.Accepts (s : State) (evs : List Event) : Prop :=
  ∀ k < writesIn evs, s.ioAnswerAt k = .ok

/-- The premises under which a command that writes lines runs to its end (R42, R112): GUARD = 0,
FATAL = 0, and no write of it fails. -/
abbrev State.RunsThrough (s : State) (evs : List Event) : Prop :=
  s.guard = false ∧ s.fatal = false ∧ s.Accepts evs

/-- The events before the `n`-th line write, counted from 0. -/
def beforeWrite : Nat → List Event → List Event
  | _, [] => []
  | n, .hold w :: evs => .hold w :: beforeWrite n evs
  | 0, .write _ _ :: _ => []
  | n + 1, .write l v :: evs => .write l v :: beforeWrite n evs

/-- The `n`-th line write, counted from 0. -/
def nthWrite : Nat → List Event → Option (Line × Level)
  | _, [] => none
  | n, .hold _ :: evs => nthWrite n evs
  | 0, .write l v :: _ => some (l, v)
  | n + 1, .write _ _ :: evs => nthWrite n evs

/-- The premises under which a command that writes lines ends in `IOFailure` at its `n`-th write (R112):
it starts, the writes before are performed, that one is failed. -/
abbrev State.FailsAt (s : State) (n : Nat) (evs : List Event) : Prop :=
  s.guard = false ∧ s.fatal = false ∧ n < writesIn evs ∧
  (∀ k < n, s.ioAnswerAt k = .ok) ∧ s.ioAnswerAt n ≠ .ok

/-! ### What a command leaves -/

/-- The record of the issuer after a completed command (R20): `CP` one further, nothing else; the other
requester's record is as it was. -/
abbrev State.IssuerAdvanced (s t : State) : Prop :=
  t.issuer = s.issuer ∧
  t.portA = (if s.issuer = .a then { s.portA with cp := s.portA.cp + 1 } else s.portA) ∧
  t.portB = (if s.issuer = .b then { s.portB with cp := s.portB.cp + 1 } else s.portB)

/-- A command ran to its end with these events (R12, R20, R42): they are appended, the lines are where
they take them, GUARD and FATAL are 0, the issuer's `CP` is one further. -/
abbrev State.Completed (s t : State) (evs : List Event) : Prop :=
  t.trace = s.trace ++ evs ∧ t.lines = replay s.lines evs ∧
  t.guard = false ∧ t.fatal = false ∧ t.failure = s.failure ∧
  s.IssuerAdvanced t ∧ t.config = s.config ∧ t.turns = s.turns

/-- A command with these events ended in `IOFailure` at its `n`-th write (R112 (1) to (3)): FATAL is 1 with
the write recorded, GUARD stays 1, the events before that write are appended and no other, the failed
line has its old level or the written one, the other lines are where those events took them, and
neither requester's record changes. -/
abbrev State.IoFailed (s t : State) (n : Nat) (evs : List Event) : Prop :=
  t.fatal = true ∧ t.guard = true ∧ t.trace = s.trace ++ beforeWrite n evs ∧
  (∃ l v, nthWrite n evs = some (l, v) ∧ t.failure = some (l, v) ∧
    (t.lines = replay s.lines (beforeWrite n evs) ∨
      t.lines = (replay s.lines (beforeWrite n evs)).set l v)) ∧
  t.portA = s.portA ∧ t.portB = s.portB ∧ t.issuer = s.issuer ∧
  t.config = s.config ∧ t.turns = s.turns

/-- Commands one after the other, as one requester issues them; it stops where `exec` does. -/
def execAll : List Instr → State → Host.Outcome State Fault Refusal
  | [], s => .next s
  | i :: is, s =>
    match exec i s with
    | .next t => execAll is t
    | .fault r => .fault r
    | .refused r => .refused r

/-- The characters of a text that the table maps, in text order (R101). -/
def mappedChars (text : List Byte) : List Byte := text.filter isMapped

/-! ### Invariants of a run -/

/-- GUARD between two steps (R12, R13): "0 in every state between two steps, except after a fatal
failure, where it stays 1". -/
abbrev State.GuardIsFatal (s : State) : Prop := s.guard = s.fatal

/-- Idle levels (R90): between two commands, while FATAL = 0, CLK = 0 and LE = 0. -/
abbrev State.IdleLevels (s : State) : Prop := s.fatal = false → s.lines.clk = false ∧ s.lines.le = false

/-- The chain has `8 x N_POSITIONS` stages and registers of the same size (R31), N_POSITIONS at least 1 (R5). -/
abbrev State.ChainSized (s : State) : Prop :=
  s.chain.stage.length = 8 * s.config.nPositions ∧
  s.chain.disp.length = 8 * s.config.nPositions ∧
  s.chain.cfg.length = 8 * s.config.nPositions

/-- The number of commands in a list, refused words included (R20); the fuel is its length. -/
def commandCount : Nat → List Byte → Nat
  | 0, _ => 0
  | _ + 1, [] => 0
  | fuel + 1, b :: bs => commandCount fuel (decode (b :: bs)).rest + 1

/-- The legal values of a command pointer (R18): 0 to the length of the command list. -/
abbrev Port.CpLegal (p : Port) : Prop := p.cp ≤ commandCount p.commands.length p.commands

/-- Between two commands, while FATAL = 0, the recogniser's newest sample was taken with LE = 0 (R90: "LE
is 0 at every clock pulse except pulse 4 of a SWITCHMODE", which a fifth pulse follows). -/
abbrev State.LastSampleLow (s : State) : Prop :=
  s.fatal = false → ∀ x ∈ s.chain.samples.head?, x.2 = false

/-- No mode switch has been begun that clock pulses with LE = 0 and OE as it is could complete to Special: OE
is 0, so every sample is (0,0) and none completes the pattern of R36; or LE_SPECIAL_LEVEL is 1 and the newest
sample was taken with LE = 0 (R90); or the newest three samples were taken with OE = 1, so that the (0,0) the
pattern needs cannot come into its place. -/
abbrev State.NoSwitchBegun (s : State) : Prop :=
  s.lines.oe = false ∨ (s.config.leSpecialLevel = true ∧ s.LastSampleLow) ∨
    ∀ x ∈ s.chain.samples.take 3, x.1 = true

/-- A requester has finished its list (R20). -/
abbrev State.finished (r : Requester) (s : State) : Prop := s.pending r = []

/-- The end of a run (R126); a state with FATAL = 1 is never final (R112). -/
abbrev State.Final (s : State) : Prop :=
  s.finished .a ∧ s.finished .b ∧ s.guard = false ∧ s.fatal = false

/-- Whether an answer is a refusal. -/
def Answer.isRefusal : Answer → Bool
  | .pattern _ _ => false
  | .invalid _ => true

/-- A run that ended and in which no command was refused: "a model marks a program containing a refused
command as having no meaning rather than as having run cleanly" (R113). -/
abbrev State.RanCleanly (s : State) : Prop :=
  s.Final ∧ s.portA.answers.all (fun a => !a.isRefusal) = true ∧
    s.portB.answers.all (fun a => !a.isRefusal) = true

/-- Two states with the same block and the same chain: nothing an observer or the chain could tell apart
(R13 "frozen": the latches, the two status bits, the trace and the chain). -/
abbrev State.SameBlock (s t : State) : Prop :=
  t.lines = s.lines ∧ t.guard = s.guard ∧ t.fatal = s.fatal ∧ t.failure = s.failure ∧
  t.trace = s.trace ∧ t.chain = s.chain ∧ t.saveSm = s.saveSm ∧ t.saveSb = s.saveSb

end Sys2Proof.Machine
end

