-- ==== Sys2Proof/Certificates/Slice0/Obligations.lean ====
section
/-! DEFINITION. The statements for the provers, from the numbered rules of the spec, file by file. Every
statement is about all states, all configurations and all free values unless it names a premise. -/

open Sys2Proof Sys2Proof.Machine

/-! ### 30_encoding: the byte form -/

/-- Words written out from the formats of R53, R54 and the opcode map of R56 (the bytes of V3 and V10 and of
the examples of R60) decode to the commands they stand for; the sequence is no palindrome. -/
def Obligations.SampleWordsDecode : Prop :=
  decode [0x01#8, 0xFF#8] = .ok (.encode 0xFF#8) [] ∧
  decode [0x02#8, 0x01#8] = .ok (.sendbit true) [] ∧
  decode [0x03#8, 0x0B#8, 0x0D#8, 0x07#8] =
    .ok (.sendserial [true, false, true, true, false, false, false, false, true, true, true]) [] ∧
  decode [0x04#8, 0x08#8] = .ok .latch [0x08#8] ∧
  decode [0x05#8, 0x01#8] = .ok (.switchmode .special) [] ∧
  decode [0x06#8, 0x5A#8] = .ok (.setbrightness 0x5A#8) [] ∧
  decode [0x07#8, 0x02#8, 0x31#8, 0x2D#8] = .ok (.render [0x31#8, 0x2D#8]) [] ∧
  decode [0x08#8] = .ok .enable [] ∧
  decode [0x09#8] = .ok .disable []

/-- Decoding the bytes of a well-formed command, whatever follows them, gives the command and what
follows (30_encoding sections 3 and 4; D3 "decode and encode inverse to each other"). -/
def Obligations.DecodeOfEncode : Prop :=
  ∀ (i : Instr) (rest : List Byte), i.wf = true → decode (encode i ++ rest) = .ok i rest

/-- A command the decoder reads is well-formed, and its bytes are the only ones that read so. -/
def Obligations.DecodeIsCanonical : Prop :=
  ∀ (bytes : List Byte) (i : Instr) (rest : List Byte),
    decode bytes = .ok i rest → i.wf = true ∧ bytes = encode i ++ rest

/-- Which byte sequences are illegal, with the reason and what it records (30_encoding section 5 and
60_exceptions section 3, the order of checks). The bytes after a `Truncated` word are none. -/
def Obligations.IllegalWordsRefused : Prop :=
  (∀ (op : Byte) (rest : List Byte), op = 0x00#8 ∨ 0x0A#8 ≤ op →
    decode (op :: rest) = .illegal (.reservedOpcode op) rest) ∧
  (∀ (arg : Byte) (rest : List Byte), 0x02#8 ≤ arg →
    decode (0x02#8 :: arg :: rest) = .illegal (.badOperand arg) rest ∧
    decode (0x05#8 :: arg :: rest) = .illegal (.badOperand arg) rest) ∧
  (∀ (n : Byte) (payload rest : List Byte) (j : Nat), payload.length = (n.toNat + 7) / 8 →
    n.toNat ≤ j → (payload.flatMap bitsOf)[j]? = some true →
    decode (0x03#8 :: n :: (payload ++ rest)) = .illegal (.badPadding (payload.getLastD 0)) rest) ∧
  (∀ (op : Byte), op ∈ [0x01#8, 0x02#8, 0x03#8, 0x05#8, 0x06#8, 0x07#8] →
    decode [op] = .illegal (.truncated 1) []) ∧
  (∀ (n : Byte) (tail : List Byte), tail.length < (n.toNat + 7) / 8 →
    decode (0x03#8 :: n :: tail) = .illegal (.truncated ((n.toNat + 7) / 8 - tail.length)) []) ∧
  (∀ (n : Byte) (tail : List Byte), tail.length < n.toNat →
    decode (0x07#8 :: n :: tail) = .illegal (.truncated (n.toNat - tail.length)) [])

/-- R55: the length of a command by its format (Z 1 byte, B 2 bytes, V 2 + ceil(n/8), S 2 + n), learned
from its first two bytes: two streams that agree on those are cut at the same place. -/
def Obligations.CommandLengths : Prop :=
  ∀ (bytes : List Byte) (i : Instr) (rest : List Byte), decode bytes = .ok i rest →
    bytes.length = rest.length +
      (match i with
        | .latch => 1
        | .enable => 1
        | .disable => 1
        | .encode _ => 2
        | .sendbit _ => 2
        | .switchmode _ => 2
        | .setbrightness _ => 2
        | .sendserial bits => 2 + (bits.length + 7) / 8
        | .render text => 2 + text.length) ∧
    (∀ (other : List Byte) (j : Instr) (rest' : List Byte),
      decode other = .ok j rest' → other.take 2 = bytes.take 2 →
      other.length - rest'.length = bytes.length - rest.length)

/-- R51: `bits_of` and `byte_of` are inverse, bit k of the byte is index k with weight 2^k, a mapped character's
pair is 1 and its pattern's byte, an unmapped character's is (0, 0x00), and a byte's sequence goes out most
significant bit first. -/
def Obligations.PatternByteInverse : Prop :=
  (∀ (bits : List Level), bits.length = 8 → bitsOf (byteOf bits) = bits ∧
    (byteOf bits).toNat = ((List.range 8).map (fun k => (bits.getD k false).toNat * 2 ^ k)).sum) ∧
  (∀ (pat : Byte), byteOf (bitsOf pat) = pat ∧ ∀ k < 8, (bitsOf pat)[k]? = some (pat.getLsbD k)) ∧
  (∀ (t : CharacterTable) (ch : Byte), isMapped ch = true →
    encodeResult t ch = (0x01#8, byteOf (encodeChar t ch)) ∧
    bitsOf (encodeResult t ch).2 = encodeChar t ch) ∧
  (∀ (t : CharacterTable) (ch : Byte), isMapped ch = false → encodeResult t ch = (0x00#8, 0x00#8)) ∧
  (∀ (pat : Byte), levelsOn .data (serialEvents (bitsOf pat)) =
    [pat.getLsbD 7, pat.getLsbD 6, pat.getLsbD 5, pat.getLsbD 4,
      pat.getLsbD 3, pat.getLsbD 2, pat.getLsbD 1, pat.getLsbD 0])

/-! ### 40_segment_encoder -/

/-- R71: a mapped character's pattern has length 8 and its true positions are exactly the letters of its
set, in the order of the outputs (b g c P d e f a); an unmapped character's pattern is empty. The mapped
characters are the twelve of 30_encoding section 2, each with its own entry of the table. -/
def Obligations.EncodePatternIsLetterSet : Prop :=
  (∀ (ch : Byte), isMapped ch = true ↔
    (0x30#8 ≤ ch ∧ ch ≤ 0x39#8) ∨ ch = 0x2D#8 ∨ ch = 0x20#8) ∧
  ([0x30#8, 0x31#8, 0x32#8, 0x33#8, 0x34#8, 0x35#8, 0x36#8, 0x37#8, 0x38#8, 0x39#8, 0x2D#8, 0x20#8].map
      glyphOf =
    [some .d0, some .d1, some .d2, some .d3, some .d4, some .d5, some .d6, some .d7, some .d8, some .d9,
      some .dash, some .space]) ∧
  (∀ (t : CharacterTable),
    [Glyph.d0, .d1, .d2, .d3, .d4, .d5, .d6, .d7, .d8, .d9, .dash, .space].map (lettersOf t) =
      [t.d0, t.d1, t.d2, t.d3, t.d4, t.d5, t.d6, t.d7, t.d8, t.d9, t.dash, []]) ∧
  ∀ (t : CharacterTable) (ch : Byte),
    (∀ g, glyphOf ch = some g → (encodeChar t ch).length = 8 ∧
      ∀ (k : Nat) (l : Segment), [Segment.b, .g, .c, .p, .d, .e, .f, .a][k]? = some l →
        ((encodeChar t ch)[k]? = some true ↔ l ∈ lettersOf t g)) ∧
    (glyphOf ch = none → encodeChar t ch = [])

/-- R70: ENCODE's encoding and the pattern of a character; it answers the pair to its issuer and moves its `CP`
past the command in every state, also while GUARD = 1 and when FATAL = 1, and changes nothing else. -/
def Obligations.EncodeAnswers : Prop :=
  ∀ (ch : Byte) (s : State),
    encode (.encode ch) = [0x01#8, ch] ∧
    encodeChar s.config.ctLetters ch = (match glyphOf ch with
      | some g => [Segment.b, .g, .c, .p, .d, .e, .f, .a].map
          (fun l => decide (l ∈ lettersOf s.config.ctLetters g))
      | none => []) ∧
    ∃ t, exec (.encode ch) s = .next t ∧
      t.port s.issuer =
        { s.port s.issuer with
          cp := (s.port s.issuer).cp + 1
          answers := (s.port s.issuer).answers ++
            [if isMapped ch then .pattern 0x01#8 (byteOf (encodeChar s.config.ctLetters ch))
             else .pattern 0x00#8 0x00#8] } ∧
      (∀ r, r ≠ s.issuer → t.port r = s.port r) ∧ s.SameBlock t ∧
      t.config = s.config ∧ t.issuer = s.issuer ∧ t.io = s.io ∧ t.turns = s.turns

/-- The pattern bytes of the default table, vector V1. The table is the spec's general knowledge (G1) and the
model's default configuration (log 2); the characters outside the twelve give (0, 0x00). -/
def Obligations.DefaultFontBytes : Prop :=
  ([0x30#8, 0x31#8, 0x32#8, 0x33#8, 0x34#8, 0x35#8, 0x36#8, 0x37#8, 0x38#8, 0x39#8, 0x2D#8, 0x20#8,
    0x2E#8, 0x41#8, 0x00#8, 0xFF#8].map (encodeResult State.reset.config.ctLetters)) =
  [(0x01#8, 0xF5#8), (0x01#8, 0x05#8), (0x01#8, 0xB3#8), (0x01#8, 0x97#8), (0x01#8, 0x47#8),
   (0x01#8, 0xD6#8), (0x01#8, 0xF6#8), (0x01#8, 0x85#8), (0x01#8, 0xF7#8), (0x01#8, 0xD7#8),
   (0x01#8, 0x02#8), (0x01#8, 0x00#8), (0x00#8, 0x00#8), (0x00#8, 0x00#8), (0x00#8, 0x00#8),
   (0x00#8, 0x00#8)]

/-- The space is mapped and gives eight 0s in every table, so it occupies a position; an unmapped
character sends no bit and occupies none (40_segment_encoder section 2; 30_encoding section 1). -/
def Obligations.SpaceIsNotUnmapped : Prop :=
  ∀ (t : CharacterTable),
    encodeChar t 0x20#8 = List.replicate 8 false ∧
    ∀ ch, isMapped ch = false →
      encodeChar t ch = [] ∧ ∀ text, renderEvents t (ch :: text) = renderEvents t text

/-! ### 41_serial_transport: what the commands do to the lines and the trace -/

/-- R80: SENDBIT's encoding, its four events, the lines it leaves, the bit shifted into the chain, and
`IOFailure` at any of its three writes. -/
def Obligations.SendBitRuns : Prop :=
  ∀ (bit : Level) (s : State),
    encode (.sendbit bit) = [0x02#8, if bit then 0x01#8 else 0x00#8] ∧
    (s.RunsThrough [.write .data bit, .write .clk true, .hold .clkw, .write .clk false] →
      ∃ t, exec (.sendbit bit) s = .next t ∧
        s.Completed t [.write .data bit, .write .clk true, .hold .clkw, .write .clk false] ∧
        t.lines = { s.lines with data := bit, clk := false } ∧
        (s.lines.clk = false → t.chain.stage = (bit :: s.chain.stage).dropLast)) ∧
    ∀ n, s.FailsAt n [.write .data bit, .write .clk true, .hold .clkw, .write .clk false] →
      n < 3 ∧ ∃ t, exec (.sendbit bit) s = .next t ∧
        s.IoFailed t n [.write .data bit, .write .clk true, .hold .clkw, .write .clk false]

/-- R82: SENDSERIAL's encoding (element k at bit k mod 8 of payload byte k div 8, the unused high bits 0: R54);
its events are those of SENDBIT for each element from the last index to
the first, so the levels written to DATA are `reverse(bits)`; the lines it leaves; nothing at all for the
empty sequence; one element equals SENDBIT; a sequence of the chain's length ends in its stages in its own order;
`IOFailure` at any write. -/
def Obligations.SendSerialRuns : Prop :=
  ∀ (bits : List Level) (s : State),
    (∃ payload : List Byte,
      encode (.sendserial bits) = 0x03#8 :: BitVec.ofNat 8 bits.length :: payload ∧
      payload.length = (bits.length + 7) / 8 ∧
      ∀ k, (payload.getD (k / 8) 0x00#8).getLsbD (k % 8) = bits.getD k false) ∧
    levelsOn .data (bits.reverse.flatMap sendBitEvents) = bits.reverse ∧
    (∀ b, exec (.sendserial [b]) s = exec (.sendbit b) s) ∧
    (s.RunsThrough (bits.reverse.flatMap sendBitEvents) →
      ∃ t, exec (.sendserial bits) s = .next t ∧
        s.Completed t (bits.reverse.flatMap sendBitEvents) ∧
        t.lines = { s.lines with
          data := bits.headD s.lines.data
          clk := if bits = [] then s.lines.clk else false } ∧
        (s.lines.clk = false → bits.length = s.chain.stage.length → t.chain.stage = bits)) ∧
    ∀ n, s.FailsAt n (bits.reverse.flatMap sendBitEvents) →
      ∃ t, exec (.sendserial bits) s = .next t ∧
        s.IoFailed t n (bits.reverse.flatMap sendBitEvents)

/-- R83: SENDSERIAL of a joined sequence appends the same events, and leaves the same lines and the same
chain, as SENDSERIAL of its last piece followed by SENDSERIAL of its first piece, and in general not the events
of the first piece followed by the last. -/
def Obligations.SendSerialSplits : Prop :=
  (∃ xs ys : List Level, serialEvents (xs ++ ys) ≠ serialEvents xs ++ serialEvents ys) ∧
  ∀ (xs ys : List Level) (s : State), s.RunsThrough (serialEvents ys ++ serialEvents xs) →
    ∃ t u, exec (.sendserial (xs ++ ys)) s = .next t ∧
      execAll [.sendserial ys, .sendserial xs] s = .next u ∧
      t.trace = s.trace ++ (serialEvents ys ++ serialEvents xs) ∧
      u.trace = t.trace ∧ u.lines = t.lines ∧ u.chain = t.chain

/-- LATCH (41_serial_transport section 3): its encoding, its three events, the lines it leaves, and `IOFailure` at either write. -/
def Obligations.LatchRuns : Prop :=
  ∀ (s : State),
    encode .latch = [0x04#8] ∧
    (s.RunsThrough [.write .le true, .hold .lew, .write .le false] →
      ∃ t, exec .latch s = .next t ∧
        s.Completed t [.write .le true, .hold .lew, .write .le false] ∧
        t.lines = { s.lines with le := false }) ∧
    ∀ n, s.FailsAt n [.write .le true, .hold .lew, .write .le false] →
      n < 2 ∧ ∃ t, exec .latch s = .next t ∧
        s.IoFailed t n [.write .le true, .hold .lew, .write .le false]

/-- R86: SWITCHMODE's encoding, its 22 events with `L` the level of LE at pulse 4 and the restore of OE, the
lines it leaves (DATA is not touched), `SAVE_SM`, and `IOFailure` at any of the 17 writes. -/
def Obligations.SwitchModeRuns : Prop :=
  ∀ (m : ChainMode) (s : State),
    encode (.switchmode m) = [0x05#8, if m = .normal then 0x00#8 else 0x01#8] ∧
    ∀ (level : Level) (evs : List Event),
      level = (if m = .special then s.config.leSpecialLevel else !s.config.leSpecialLevel) →
      evs = [.write .le false,
        .write .oe true, .write .clk true, .hold .clkw, .write .clk false,
        .write .oe false, .write .clk true, .hold .clkw, .write .clk false,
        .write .oe true, .write .clk true, .hold .clkw, .write .clk false,
        .write .le level, .write .clk true, .hold .clkw, .write .clk false,
        .write .le false, .write .clk true, .hold .clkw, .write .clk false,
        .write .oe s.lines.oe] →
      (s.RunsThrough evs → ∃ t, exec (.switchmode m) s = .next t ∧ s.Completed t evs ∧
        t.lines = { s.lines with clk := false, le := false } ∧
        t.saveSm = s.lines.oe ∧ t.saveSb = s.saveSb) ∧
      ∀ n, s.FailsAt n evs → n < 17 ∧ ∃ t, exec (.switchmode m) s = .next t ∧ s.IoFailed t n evs

/-- R88: SETBRIGHTNESS's encoding, its 336 events (the 22 of SWITCHMODE Special, nine times SENDSERIAL of the
code's bits, LATCH, the write of the OE level it found, the 22 of SWITCHMODE Normal), the lines and save
registers it leaves, and `IOFailure` at any write. -/
def Obligations.SetBrightnessRuns : Prop :=
  ∀ (code : Byte) (s : State),
    encode (.setbrightness code) = [0x06#8, code] ∧
    ∀ (evs : List Event),
      evs = switchModeEvents s.config.leSpecialLevel s.lines.oe ++
        (List.replicate 9 (serialEvents [code.getLsbD 0, code.getLsbD 1, code.getLsbD 2, code.getLsbD 3,
          code.getLsbD 4, code.getLsbD 5, code.getLsbD 6, code.getLsbD 7])).flatten ++
        latchEvents ++ [.write .oe s.lines.oe] ++
        switchModeEvents (!s.config.leSpecialLevel) s.lines.oe →
      evs.length = 336 ∧
      (s.RunsThrough evs → ∃ t, exec (.setbrightness code) s = .next t ∧ s.Completed t evs ∧
        t.lines = { s.lines with clk := false, le := false, data := code.getLsbD 0 } ∧
        t.saveSb = s.lines.oe ∧ t.saveSm = s.lines.oe) ∧
      ∀ n, s.FailsAt n evs → ∃ t, exec (.setbrightness code) s = .next t ∧ s.IoFailed t n evs

/-- R91: the events a command appends when no write fails, and their counts: events, clock pulses, 0-to-1
transitions of LE (from LE = 0) and writes of OE of every command, as the table gives them; the LE column of SWITCHMODE, which the table gives for LE_SPECIAL_LEVEL = 1, for both
values of it. -/
def Obligations.CommandCounts : Prop :=
  (∀ (i : Instr) (s : State), s.RunsThrough (commandEvents s.config s.lines.oe i) →
    ∃ t, exec i s = .next t ∧ t.trace = s.trace ++ commandEvents s.config s.lines.oe i) ∧
  ∀ (c : Config) (oe : Level) (i : Instr),
    ((commandEvents c oe i).length, timesWritten .clk true (commandEvents c oe i),
      timesWritten .oe true (commandEvents c oe i) + timesWritten .oe false (commandEvents c oe i)) =
      (match i with
        | .encode _ => (0, 0, 0)
        | .sendbit _ => (4, 1, 0)
        | .sendserial bits => (4 * bits.length, bits.length, 0)
        | .latch => (3, 0, 0)
        | .switchmode _ => (22, 5, 4)
        | .setbrightness _ => (336, 82, 9)
        | .render text => (32 * (mappedChars text).length + 3, 8 * (mappedChars text).length, 0)
        | .enable => (1, 0, 1)
        | .disable => (1, 0, 1)) ∧
    rises .le false (commandEvents c oe i) =
      (match i with
        | .encode _ => 0
        | .sendbit _ => 0
        | .sendserial _ => 0
        | .latch => 1
        | .switchmode .special => if c.leSpecialLevel then 1 else 0
        | .switchmode .normal => if c.leSpecialLevel then 0 else 1
        | .setbrightness _ => 2
        | .render _ => 1
        | .enable => 0
        | .disable => 0)

/-- DATA is stable over every clock pulse (41_serial_transport section 1, what SENDBIT guarantees the chain):
whatever a command does from CLK = 0, also when a write of it fails, no event of it writes DATA while CLK
is at 1. -/
def Obligations.DataStableOverPulses : Prop :=
  ∀ (i : Instr) (s t : State), s.lines.clk = false → exec i s = .next t →
    ∃ evs, t.trace = s.trace ++ evs ∧ dataStable false evs = true

/-! ### 42_display_driver -/

/-- RENDER (42_display_driver section 1): its encoding, its 32m + 3 events (SENDSERIAL of every pattern from the
last character to the first, then the latch pulse), the lines it leaves, and `IOFailure` at any write. -/
def Obligations.RenderRuns : Prop :=
  ∀ (text : List Byte) (s : State),
    encode (.render text) = 0x07#8 :: BitVec.ofNat 8 text.length :: text ∧
    ∀ (evs : List Event),
      evs = text.reverse.flatMap (fun ch => serialEvents (encodeChar s.config.ctLetters ch)) ++
        [.write .le true, .hold .lew, .write .le false] →
      evs.length = 32 * (mappedChars text).length + 3 ∧
      (s.RunsThrough evs → ∃ t, exec (.render text) s = .next t ∧ s.Completed t evs ∧
        t.lines = { s.lines with
          le := false
          clk := if mappedChars text = [] then s.lines.clk else false
          data := (textPatterns s.config.ctLetters text).headD s.lines.data }) ∧
      ∀ n, s.FailsAt n evs → ∃ t, exec (.render text) s = .next t ∧ s.IoFailed t n evs

/-- RENDER is the same, in every state and with every outcome, as RENDER of the text with its unmapped
characters removed (42_display_driver section 1, corner case (b)). -/
def Obligations.RenderSkipsUnmapped : Prop :=
  ∀ (text : List Byte) (s : State), exec (.render text) s = exec (.render (mappedChars text)) s

/-- RENDER is one SENDSERIAL of the concatenated patterns followed by LATCH (42_display_driver section 1,
order and position): the same events, lines and chain. -/
def Obligations.RenderIsSerialThenLatch : Prop :=
  ∀ (text : List Byte) (s : State), s.RunsThrough (renderEvents s.config.ctLetters text) →
    ∃ t u, exec (.render text) s = .next t ∧
      execAll [.sendserial (textPatterns s.config.ctLetters text), .latch] s = .next u ∧
      t.trace = s.trace ++ renderEvents s.config.ctLetters text ∧
      u.trace = t.trace ∧ u.lines = t.lines ∧ u.chain = t.chain

/-- SETBRIGHTNESS appends the same events, and leaves the same lines and the same chain, as the commands it
is made of: SWITCHMODE SPECIAL, nine SENDSERIALs, LATCH, ENABLE or DISABLE for the OE level found, SWITCHMODE
NORMAL (30_encoding section 7). -/
def Obligations.SetBrightnessIsComposition : Prop :=
  ∀ (code : Byte) (s : State),
    s.RunsThrough (brightnessEvents s.config.leSpecialLevel s.lines.oe code) →
    ∃ t u, exec (.setbrightness code) s = .next t ∧
      execAll ([.switchmode .special] ++ List.replicate 9 (.sendserial (bitsOf code)) ++
        [.latch, if s.lines.oe then .disable else .enable, .switchmode .normal]) s = .next u ∧
      u.trace = t.trace ∧ u.lines = t.lines ∧ u.chain = t.chain

/-- R102: ENABLE's encoding, its one event, OE = 0 afterwards and the chain as it was, also when OE is 0
already; `IOFailure` at its write. -/
def Obligations.EnableRuns : Prop :=
  ∀ (s : State),
    encode .enable = [0x08#8] ∧
    (s.RunsThrough [.write .oe false] → ∃ t, exec .enable s = .next t ∧
      s.Completed t [.write .oe false] ∧ t.lines = { s.lines with oe := false } ∧
      t.chain = s.chain ∧ t.chain.lamps t.lines.oe = s.chain.disp) ∧
    (s.FailsAt 0 [.write .oe false] → ∃ t, exec .enable s = .next t ∧
      s.IoFailed t 0 [.write .oe false])

/-- DISABLE (42_display_driver section 2): its encoding, its one event, OE = 1 afterwards, the lamps off and the latched data kept,
also when OE is 1 already; `IOFailure` at its write. -/
def Obligations.DisableRuns : Prop :=
  ∀ (s : State),
    encode .disable = [0x09#8] ∧
    (s.RunsThrough [.write .oe true] → ∃ t, exec .disable s = .next t ∧
      s.Completed t [.write .oe true] ∧ t.lines = { s.lines with oe := true } ∧
      t.chain = s.chain ∧ t.chain.lamps t.lines.oe = List.replicate s.chain.disp.length false) ∧
    (s.FailsAt 0 [.write .oe true] → ∃ t, exec .disable s = .next t ∧
      s.IoFailed t 0 [.write .oe true])

/-! ### 20_memory: what the commands do to the chain (the reference receiver) -/

/-- The shift rule over a SENDSERIAL of any length (20_memory sections 2 and 4): from CLK = 0 the sequence
stands in front of the old stages, in its own order, and what does not fit is lost; from CLK = 1, which no
command leaves, the first pulse is no transition and its bit is lost. Nothing is committed. SENDBIT is the case of one bit. -/
def Obligations.SerialShiftsStages : Prop :=
  ∀ (bits : List Level) (s : State), s.RunsThrough (serialEvents bits) →
    ∃ t, exec (.sendserial bits) s = .next t ∧
      t.chain.stage = ((if s.lines.clk then bits.dropLast else bits) ++ s.chain.stage).take
        s.chain.stage.length ∧
      t.chain.disp = s.chain.disp ∧ t.chain.cfg = s.chain.cfg

/-- A LATCH pulse from LE = 0 commits all stages at once into the register the mode selects and leaves the
other, the stages and the mode alone (20_memory section 2). That from LE = 1, which no command leaves, there
is no transition and nothing is committed is the model's deduction from the shift rule's sentence on CLK
(DEDUCED, log 16). -/
def Obligations.LatchCommitsStages : Prop :=
  ∀ (s : State), s.RunsThrough latchEvents →
    ∃ t, exec .latch s = .next t ∧ t.chain.stage = s.chain.stage ∧ t.chain.mode = s.chain.mode ∧
      t.chain.samples = s.chain.samples ∧
      t.chain.disp = (if s.lines.le = false ∧ s.chain.mode = .normal then s.chain.stage
        else s.chain.disp) ∧
      t.chain.cfg = (if s.lines.le = false ∧ s.chain.mode = .special then s.chain.stage
        else s.chain.cfg)

/-- When a SWITCHMODE from CLK = 0 completes, the chain is in the mode it names, whatever the mode and the
samples were; the five pulses shift DATA in five times; the configuration register is kept; the display
register is kept in the reference receiver, and under the other values of U6 (log 9) is one of the three U6 names
(20_memory section 2). The recogniser is the spec's line-level receiver (log 12). -/
def Obligations.SwitchModeSetsMode : Prop :=
  ∀ (m : ChainMode) (s : State), s.lines.clk = false →
    s.RunsThrough (switchModeEvents
      (if m = .special then s.config.leSpecialLevel else !s.config.leSpecialLevel) s.lines.oe) →
    ∃ t, exec (.switchmode m) s = .next t ∧ t.chain.mode = m ∧
      t.chain.stage = (List.replicate 5 s.lines.data ++ s.chain.stage).take s.chain.stage.length ∧
      t.chain.cfg = s.chain.cfg ∧
      (s.config.specialCommit = .never → t.chain.disp = s.chain.disp) ∧
      (t.chain.disp = s.chain.disp ∨
        t.chain.disp = (List.replicate 3 s.lines.data ++ s.chain.stage).take s.chain.stage.length ∨
        t.chain.disp = (List.replicate 4 s.lines.data ++ s.chain.stage).take s.chain.stage.length)

/-- When a SETBRIGHTNESS from CLK = 0 completes, the chain is in Normal mode, the configuration register holds
the code nine times over (what else stood in the stages behind it, on a longer chain), on the nine chips
of the default chain exactly the code in each; the display register is kept in the reference receiver;
the stages hold no display frame (20_memory section 2, 41_serial_transport section 5). The recogniser is the
spec's line-level receiver (log 12); the premise of the last clause is the reference receiver (log 9). -/
def Obligations.SetBrightnessConfiguresChain : Prop :=
  ∀ (code : Byte) (s : State), s.lines.clk = false →
    s.RunsThrough (brightnessEvents s.config.leSpecialLevel s.lines.oe code) →
    ∃ t, exec (.setbrightness code) s = .next t ∧ t.chain.mode = .normal ∧
      t.chain.cfg = ((List.replicate 9 (bitsOf code)).flatten ++
        (List.replicate 5 s.lines.data ++ s.chain.stage)).take s.chain.stage.length ∧
      (s.chain.stage.length = 72 → t.chain.cfg = (List.replicate 9 (bitsOf code)).flatten) ∧
      t.chain.stage = (List.replicate 5 (code.getLsbD 0) ++ ((List.replicate 9 (bitsOf code)).flatten ++
        (List.replicate 5 s.lines.data ++ s.chain.stage))).take s.chain.stage.length ∧
      (s.config.specialCommit = .never → t.chain.disp = s.chain.disp)

/-- RENDER from idle levels puts the patterns of its text in front of the old stages and commits the stages
into the register of the mode the chain is in at the latch pulse: the short, the long and the full frame
alike (20_memory section 4, 70_reset_and_hazards H3 and H5). -/
def Obligations.RenderCommitsFrame : Prop :=
  ∀ (text : List Byte) (s : State), s.lines.clk = false → s.lines.le = false →
    s.RunsThrough (renderEvents s.config.ctLetters text) →
    ∃ t, exec (.render text) s = .next t ∧
      t.chain.stage = (textPatterns s.config.ctLetters text ++ s.chain.stage).take
        s.chain.stage.length ∧
      t.chain.disp = (if t.chain.mode = .normal then t.chain.stage else s.chain.disp) ∧
      t.chain.cfg = (if t.chain.mode = .special then t.chain.stage else s.chain.cfg)

/-- A text with as many mapped characters as the chain has chips lands in place: its bit k of mapped character
i goes out at clock pulse 8(M-1-i) + (7-k) and ends at bit 8i + k of the display register, character i on
chip i (20_memory section 3). `NoSwitchBegun` keeps the traffic from completing a mode switch. -/
def Obligations.FullFrameLandsInPlace : Prop :=
  ∀ (text : List Byte) (s : State),
    s.lines.clk = false → s.lines.le = false → s.ChainSized →
    (mappedChars text).length = s.config.nPositions → s.chain.mode = .normal → s.NoSwitchBegun →
    s.RunsThrough (renderEvents s.config.ctLetters text) →
    ∃ t, exec (.render text) s = .next t ∧ t.chain.mode = .normal ∧
      ∀ (i k : Nat) (ch : Byte), (mappedChars text)[i]? = some ch → k < 8 →
        t.chain.disp[8 * i + k]? = (encodeChar s.config.ctLetters ch)[k]? ∧
        (levelsOn .data (renderEvents s.config.ctLetters text))[
          8 * ((mappedChars text).length - 1 - i) + (7 - k)]? = (encodeChar s.config.ctLetters ch)[k]?

/-- RENDER twice, from idle CLK and LE in Normal mode, with a text of at least as many mapped characters as the
chain has chips gives the same display register as once, and the second appends the same events as the
first (20_memory section 6, repeated RENDER). `NoSwitchBegun` keeps the traffic from completing a mode switch. -/
def Obligations.FullRenderIdempotent : Prop :=
  ∀ (text : List Byte) (s : State),
    s.lines.clk = false → s.lines.le = false → s.ChainSized →
    s.config.nPositions ≤ (mappedChars text).length → s.chain.mode = .normal → s.NoSwitchBegun →
    s.RunsThrough (renderEvents s.config.ctLetters text ++ renderEvents s.config.ctLetters text) →
    ∃ t u, exec (.render text) s = .next t ∧ exec (.render text) t = .next u ∧
      t.chain.disp = t.chain.stage ∧ u.chain.disp = t.chain.disp ∧
      t.trace = s.trace ++ renderEvents s.config.ctLetters text ∧
      u.trace = t.trace ++ renderEvents s.config.ctLetters text

/-- Rendering a short text, one with fewer mapped characters than the chain has chips, again need not settle:
from idle levels and in Normal mode throughout, a third RENDER still changes the display. 20_memory section 6
says of such a text that "from the second on the result no longer changes", which does not follow from the
shift rule of section 2 when the text is shorter than half the chain; the model follows the shift rule (log 19). -/
def Obligations.ShortRenderNeedNotSettle : Prop :=
  ∃ (text : List Byte) (s t u : State), s.IdleLevels ∧ s.LastSampleLow ∧ s.GuardIsFatal ∧ s.ChainSized ∧
    s.fatal = false ∧ s.chain.mode = .normal ∧ mappedChars text = text ∧
    text.length < s.config.nPositions ∧
    execAll [.render text, .render text] s = .next t ∧ exec (.render text) t = .next u ∧
    t.chain.mode = .normal ∧ u.chain.mode = .normal ∧ u.chain.disp ≠ t.chain.disp

/-! ### Frames: what a command leaves unchanged, however it ends (41_serial_transport, 42_display_driver:
"State written") -/

/-- Every command leaves the configuration, the issuer, the choices between requesters, both command
lists, the other requester's record and (but for ENCODE) the issuer's answers alone; it moves the issuer's
`CP` by one or not at all; and where IO_CAN_FAIL is 0 it draws no answer of the collaborator. -/
def Obligations.CommandFrame : Prop :=
  ∀ (i : Instr) (s t : State), exec i s = .next t →
    t.config = s.config ∧ t.issuer = s.issuer ∧ t.turns = s.turns ∧
    (∀ r, (t.port r).commands = (s.port r).commands) ∧
    (∀ r, r ≠ s.issuer → t.port r = s.port r) ∧
    (needsGuard i = true → (t.port s.issuer).answers = (s.port s.issuer).answers) ∧
    ((t.port s.issuer).cp = (s.port s.issuer).cp ∨ (t.port s.issuer).cp = (s.port s.issuer).cp + 1) ∧
    (s.config.ioCanFail = false → t.io = s.io)

/-- SENDBIT and SENDSERIAL leave LE, OE, both save registers and the chain's display and configuration
registers alone. -/
def Obligations.ShiftFrame : Prop :=
  ∀ (i : Instr) (s t : State), ((∃ b, i = .sendbit b) ∨ ∃ bits, i = .sendserial bits) →
    exec i s = .next t →
    t.lines.le = s.lines.le ∧ t.lines.oe = s.lines.oe ∧ t.saveSm = s.saveSm ∧ t.saveSb = s.saveSb ∧
    t.chain.disp = s.chain.disp ∧ t.chain.cfg = s.chain.cfg

/-- LATCH leaves CLK, DATA, OE, both save registers and the chain's stages, mode and samples alone. -/
def Obligations.LatchFrame : Prop :=
  ∀ (s t : State), exec .latch s = .next t →
    t.lines.clk = s.lines.clk ∧ t.lines.data = s.lines.data ∧ t.lines.oe = s.lines.oe ∧
    t.saveSm = s.saveSm ∧ t.saveSb = s.saveSb ∧
    t.chain.stage = s.chain.stage ∧ t.chain.mode = s.chain.mode ∧ t.chain.samples = s.chain.samples

/-- SWITCHMODE leaves DATA, `SAVE_SB` and the chain's configuration register alone, and in the reference
receiver its display register. -/
def Obligations.SwitchModeFrame : Prop :=
  ∀ (m : ChainMode) (s t : State), exec (.switchmode m) s = .next t →
    t.lines.data = s.lines.data ∧ t.saveSb = s.saveSb ∧ t.chain.cfg = s.chain.cfg ∧
    (s.config.specialCommit = .never → t.chain.disp = s.chain.disp)

/-- SETBRIGHTNESS from CLK = 0 leaves, in the reference receiver, the display register alone, whatever write
fails; on completion OE is as it was (SetBrightnessRuns), so only DATA, the save registers, the stages, the
samples, the mode and the configuration register change. -/
def Obligations.SetBrightnessFrame : Prop :=
  ∀ (code : Byte) (s t : State), s.lines.clk = false → s.config.specialCommit = .never →
    exec (.setbrightness code) s = .next t → t.chain.disp = s.chain.disp

/-- RENDER leaves OE and both save registers alone: it does not enable the display. -/
def Obligations.RenderFrame : Prop :=
  ∀ (text : List Byte) (s t : State), exec (.render text) s = .next t →
    t.lines.oe = s.lines.oe ∧ t.saveSm = s.saveSm ∧ t.saveSb = s.saveSb

/-- ENABLE and DISABLE leave CLK, DATA, LE, both save registers and the whole chain alone. -/
def Obligations.EnableDisableFrame : Prop :=
  ∀ (i : Instr) (s t : State), (i = .enable ∨ i = .disable) → exec i s = .next t →
    t.lines.clk = s.lines.clk ∧ t.lines.data = s.lines.data ∧ t.lines.le = s.lines.le ∧
    t.saveSm = s.saveSm ∧ t.saveSb = s.saveSb ∧ t.chain = s.chain

/-! ### 60_exceptions: failures, refusals, waiting -/

/-- A command that writes lines waits, changing nothing, when GUARD = 1 or FATAL = 1 (60_exceptions section
3: "otherwise the command waits, it is not refused"). That a wait is a step which changes nothing is the
model's choice (log 14). -/
def Obligations.CommandWaits : Prop :=
  ∀ (i : Instr) (s : State), needsGuard i = true → s.guard = true ∨ s.fatal = true →
    exec i s = .next s

/-- Taking `IOFailure` (60_exceptions section 1, rule on `IOFailure`, parts (1) to (3) and the events of part
(2)): for every command that writes lines and every write of it, if that write is the first to fail, FATAL
and the write's info are set, GUARD stays 1, exactly the events before it are appended, no `CP` moves, and
the failed line is at its old level or at the written one. -/
def Obligations.IoFailureEntry : Prop :=
  ∀ (i : Instr) (s : State) (n : Nat), needsGuard i = true →
    s.FailsAt n (commandEvents s.config s.lines.oe i) →
    ∃ t, exec i s = .next t ∧ s.IoFailed t n (commandEvents s.config s.lines.oe i) ∧
      t.eventCode = 1

/-- The lines of any rule stop at the first failed write: what was done is a first part of them, performed
whole, and after it only FATAL, the failure's info and the failed line's level may differ; in particular
the chain keeps what was shifted and committed up to that point (60_exceptions section 1, part (5); log 13). -/
def Obligations.RuleStopsAtFailedWrite : Prop :=
  ∀ (script : List Act) (s : State), s.fatal = false →
    ∃ done rest, script = done ++ rest ∧ (perform done s).fatal = false ∧
      (rest = [] ∧ (perform script s).fatal = false ∨
        (perform script s).fatal = true ∧ (perform script s).chain = (perform done s).chain ∧
        (perform script s).trace = (perform done s).trace ∧
        (perform script s).guard = s.guard ∧
        ∃ l v, (perform script s).failure = some (l, v) ∧
          ((perform script s).lines = (perform done s).lines ∨
            (perform script s).lines = (perform done s).lines.set l v))

/-- When IO_CAN_FAIL is 0 no write fails and FATAL stays 0 for ever. -/
def Obligations.NoFailureWithoutIoCanFail : Prop :=
  ∀ (s t : State), s.config.ioCanFail = false → s.fatal = false → step s = .next t →
    t.config.ioCanFail = false ∧ t.fatal = false

/-- FATAL is sticky and everything is frozen under it (10_state section 2, 60_exceptions sections 1 and 4): a
step from a state with FATAL = 1 changes no line, no status bit, no save register, no event and nothing
in the chain; such a state is not final. -/
def Obligations.FatalFreezes : Prop :=
  ∀ (s t : State), s.fatal = true → step s = .next t → s.SameBlock t ∧ ¬ t.Final

/-- A refused word (60_exceptions section 1, rule on refusal): the requester gets the verdict with its reason
and its `CP` moves past the word, also when FATAL = 1; nothing else changes but which requester issued last
(log 7); such a run never counts as a clean one. -/
def Obligations.RefusedWordOnlyAnswers : Prop :=
  ∀ (s : State) (r : Requester) (reason : Illegal) (rest : List Byte),
    s.pending r ≠ [] → decode (s.pending r) = .illegal reason rest →
    (∀ q, q ≠ r → s.ready q = false) →
    ∃ t, step s = .next t ∧ s.SameBlock t ∧
      t.port r = { s.port r with
        cp := (s.port r).cp + 1
        answers := (s.port r).answers ++ [.invalid reason] } ∧
      (∀ q, q ≠ r → t.port q = s.port q) ∧
      t.config = s.config ∧ t.io = s.io ∧ t.turns = s.turns ∧ t.issuer = r ∧ ¬ t.RanCleanly

/-! ### 10_state and 20_memory: the step -/

/-- A step runs the decoded instruction: when the bytes at a requester's command pointer decode to a command
that starts and the other requester cannot be served, the step is that command's meaning, with that
requester as its issuer; and one command further on its list stand the bytes after that command's. -/
def Obligations.StepRunsCommand : Prop :=
  ∀ (s : State) (r : Requester) (i : Instr) (rest : List Byte),
    decode (s.pending r) = .ok i rest → s.starts i = true → (∀ q, q ≠ r → s.ready q = false) →
    step s = exec i { s with issuer := r } ∧
    bytesFrom ((s.port r).cp + 1) (s.port r).commands = rest

/-- When both requesters can be served either may be: the step is that of the requester the free choice
names, its command's meaning or, where its word is refused, the verdict and nothing else, and the choice is
used up (20_memory section 5, the guard; 60_exceptions section 3; log 11, and log 7 on the issuer). -/
def Obligations.StepServesChosenRequester : Prop :=
  ∀ (s : State) (r : Requester),
    s.ready .a = true → s.ready .b = true → s.turns.peek Config.freeTurn = r →
    (∀ (i : Instr) (rest : List Byte), decode (s.pending r) = .ok i rest →
      step s = exec i { s with issuer := r, turns := s.turns.next }) ∧
    ∀ (reason : Illegal) (rest : List Byte), decode (s.pending r) = .illegal reason rest →
      ∃ t, step s = .next t ∧ s.SameBlock t ∧
        t.port r = { s.port r with
          cp := (s.port r).cp + 1
          answers := (s.port r).answers ++ [.invalid reason] } ∧
        (∀ q, q ≠ r → t.port q = s.port q) ∧
        t.config = s.config ∧ t.io = s.io ∧ t.turns = s.turns.next ∧ t.issuer = r ∧ ¬ t.RanCleanly

/-- A step never stops the machine: it answers a next state in every state; and when no requester can be
served it changes nothing (the engine is idle or every command waits; log 14). -/
def Obligations.StepAlwaysAnswers : Prop :=
  ∀ (s : State), (∃ t, step s = .next t) ∧
    (s.ready .a = false → s.ready .b = false → step s = .next s)

/-- A step appends the events of at most one command, or a first part of them where a write failed, in their
order and with nothing in between; the trace only grows (20_memory section 5: "the events of one command are
contiguous in TRACE"; 10_state section 5). -/
def Obligations.TraceGrowsByOneCommand : Prop :=
  ∀ (s t : State), step s = .next t →
    ∃ evs, t.trace = s.trace ++ evs ∧
      (evs = [] ∨ ∃ r i rest, decode (s.pending r) = .ok i rest ∧
        evs <+: commandEvents s.config s.lines.oe i ∧
        (t.fatal = false → evs = commandEvents s.config s.lines.oe i))

/-- The command pointers (10_state section 6): a step moves at most one of them, by one; a command list never
changes; a step that ends in `IOFailure` moves none. -/
def Obligations.CommandPointerMovesByOne : Prop :=
  ∀ (s t : State), step s = .next t →
    t.portA.commands = s.portA.commands ∧ t.portB.commands = s.portB.commands ∧
    (t.portA.cp = s.portA.cp ∧ t.portB.cp = s.portB.cp ∨
      t.portA.cp = s.portA.cp + 1 ∧ t.portB.cp = s.portB.cp ∨
      t.portA.cp = s.portA.cp ∧ t.portB.cp = s.portB.cp + 1) ∧
    (s.fatal = false → t.fatal = true → t.portA.cp = s.portA.cp ∧ t.portB.cp = s.portB.cp)

/-! ### Invariants: every step keeps them, from every state that has them -/

/-- Idle levels (41_serial_transport section 6) and, with them, the low last sample of the recogniser, are
kept by every step. -/
def Obligations.IdleLevelsKept : Prop :=
  ∀ (s t : State), s.IdleLevels → s.LastSampleLow → step s = .next t → t.IdleLevels ∧ t.LastSampleLow

/-- GUARD is 0 between two steps except after a fatal failure, where it is 1 (10_state section 2). -/
def Obligations.GuardIsFatalKept : Prop :=
  ∀ (s t : State), s.GuardIsFatal → step s = .next t → t.GuardIsFatal

/-- The chain keeps its size and no step changes the configuration (20_memory section 2, 10_state section 4);
it has at least the eight stages of one chip (00_scope section 3). -/
def Obligations.ChainSizeKept : Prop :=
  ∀ (s t : State), s.ChainSized → step s = .next t →
    t.ChainSized ∧ t.config = s.config ∧ 8 ≤ t.chain.stage.length

/-- The command pointers stay within 0 to the length of their lists (10_state section 5). -/
def Obligations.CommandPointersStayLegal : Prop :=
  ∀ (s t : State), s.portA.CpLegal → s.portB.CpLegal → step s = .next t →
    t.portA.CpLegal ∧ t.portB.CpLegal

/-- Only SWITCHMODE SPECIAL and SETBRIGHTNESS put the chain into Special mode, when LE_SPECIAL_LEVEL is 1
(41_serial_transport section 6: "traffic can never look like a switch to Special"). -/
def Obligations.TrafficNeverEntersSpecial : Prop :=
  ∀ (i : Instr) (s t : State), s.config.leSpecialLevel = true → s.IdleLevels → s.LastSampleLow →
    s.chain.mode = .normal → exec i s = .next t → t.chain.mode = .special →
    i = .switchmode .special ∨ ∃ code, i = .setbrightness code

/-- The invariants hold at reset. -/
def Obligations.InvariantsAtReset : Prop :=
  State.reset.IdleLevels ∧ State.reset.LastSampleLow ∧ State.reset.GuardIsFatal ∧
  State.reset.ChainSized ∧ State.reset.portA.CpLegal ∧ State.reset.portB.CpLegal

/-! ### 10_state, 70_reset_and_hazards, 00_scope: reset, time, waveform -/

/-- R21: the reset values, for every configuration: OE = 1, CLK, DATA and LE at the levels of the parameters
(0, 0, 0 by default), GUARD = 0, FATAL = 0, no event, each `CP` 0; the chain is not reset: every bit of it is a
free value. -/
def Obligations.ResetValues : Prop :=
  (∀ (c : Config),
    (State.resetWith c).lines =
      { clk := c.resetClk, data := c.resetData, le := c.resetLe, oe := true } ∧
    (State.resetWith c).guard = false ∧ (State.resetWith c).fatal = false ∧
    (State.resetWith c).trace = [] ∧ (∀ r, ((State.resetWith c).port r).cp = 0) ∧
    (State.resetWith c).chain.stage = (List.range (8 * c.nPositions)).map Config.freeStage ∧
    (State.resetWith c).chain.disp = (List.range (8 * c.nPositions)).map Config.freeDisp ∧
    (State.resetWith c).chain.cfg = (List.range (8 * c.nPositions)).map Config.freeCfg) ∧
  State.reset.lines = { clk := false, data := false, le := false, oe := true }

/-- The least duration of a command (70_reset_and_hazards section 3): every command none of whose writes fails
completes, and the events it appends to the trace hold for the number of clock widths and of latch widths of the
counts table (8m and one for a RENDER of m mapped characters, 82 and one for a SETBRIGHTNESS), so that the trace
lasts longer by that many widths of the configuration. -/
def Obligations.LeastDurations : Prop :=
  ∀ (i : Instr) (s : State) (clocks latches : Nat),
    (clocks, latches) =
      (match i with
        | .encode _ => (0, 0)
        | .sendbit _ => (1, 0)
        | .sendserial bits => (bits.length, 0)
        | .latch => (0, 1)
        | .switchmode _ => (5, 0)
        | .setbrightness _ => (82, 1)
        | .render text => (8 * (mappedChars text).length, 1)
        | .enable => (0, 0)
        | .disable => (0, 0)) →
    s.RunsThrough (commandEvents s.config s.lines.oe i) →
    ∃ t evs, exec i s = .next t ∧ t.trace = s.trace ++ evs ∧
      evs.count (.hold .clkw) = clocks ∧ evs.count (.hold .lew) = latches ∧
      leastDuration t.config t.trace = leastDuration s.config s.trace +
        (clocks * s.config.clockPulseWidth + latches * s.config.latchPulseWidth)

/-- The waveform of a trace (00_scope section 4, the observation). A write of the level the line already holds,
or a hold of zero width, anywhere in a list leaves the waveform equal; a write that makes a transition and a hold
of non-zero width are kept, in their place. What a command appends to the trace appends its own waveform, from
the levels it starts at, however the command ends; a redundant ENABLE or DISABLE is performed, appends its event
and leaves the waveform equal. -/
def Obligations.WaveformIsFaithful : Prop :=
  (∀ (c : Config) (ls : Lines) (xs ys : List Event),
    waveform c ls [] = [] ∧
    replay ls (waveform c ls xs) = replay ls xs ∧
    waveform c ls (waveform c ls xs) = waveform c ls xs ∧
    (∀ l, waveform c ls (xs ++ .write l ((replay ls xs).get l) :: ys) = waveform c ls (xs ++ ys)) ∧
    (∀ w, widthOf c w = 0 → waveform c ls (xs ++ .hold w :: ys) = waveform c ls (xs ++ ys)) ∧
    (∀ l v, (replay ls xs).get l ≠ v →
      waveform c ls (xs ++ .write l v :: ys) =
        waveform c ls xs ++ .write l v :: waveform c ((replay ls xs).set l v) ys) ∧
    (∀ w, widthOf c w ≠ 0 →
      waveform c ls (xs ++ .hold w :: ys) = waveform c ls xs ++ .hold w :: waveform c (replay ls xs) ys)) ∧
  (∀ (i : Instr) (s t : State) (ls : Lines), replay ls s.trace = s.lines → exec i s = .next t →
    ∃ evs, evs <+: commandEvents s.config s.lines.oe i ∧ t.trace = s.trace ++ evs ∧
      (t.fatal = false → replay ls t.trace = t.lines) ∧
      waveform t.config ls t.trace = waveform s.config ls s.trace ++ waveform s.config s.lines evs) ∧
  (∀ (i : Instr) (s : State) (ls : Lines), replay ls s.trace = s.lines →
    s.RunsThrough (commandEvents s.config s.lines.oe i) →
    ∃ t, exec i s = .next t ∧
      waveform t.config ls t.trace =
        waveform s.config ls s.trace ++ waveform s.config s.lines (commandEvents s.config s.lines.oe i)) ∧
  ∀ (s : State) (ls : Lines), replay ls s.trace = s.lines → s.RunsThrough [.write .oe s.lines.oe] →
    ∃ t, exec (if s.lines.oe then .disable else .enable) s = .next t ∧
      t.trace = s.trace ++ [.write .oe s.lines.oe] ∧
      waveform t.config ls t.trace = waveform s.config ls s.trace
end

