-- ==== Sys2Proof/Laws/State.lean ====
section
/-! SUPPORT. One lemma per field per update of State, so that no later proof unfolds a record update. -/

namespace Sys2Proof.Machine

/-! ### A performed line write -/

@[simp] theorem drive_config (p : Purpose) (l : Line) (v : Level) (s : State) :
    (s.drive p l v).config = s.config := rfl
@[simp] theorem drive_lines (p : Purpose) (l : Line) (v : Level) (s : State) :
    (s.drive p l v).lines = s.lines.set l v := rfl
@[simp] theorem drive_guard (p : Purpose) (l : Line) (v : Level) (s : State) :
    (s.drive p l v).guard = s.guard := rfl
@[simp] theorem drive_fatal (p : Purpose) (l : Line) (v : Level) (s : State) :
    (s.drive p l v).fatal = s.fatal := rfl
@[simp] theorem drive_failure (p : Purpose) (l : Line) (v : Level) (s : State) :
    (s.drive p l v).failure = s.failure := rfl
@[simp] theorem drive_saveSm (p : Purpose) (l : Line) (v : Level) (s : State) :
    (s.drive p l v).saveSm = s.saveSm := rfl
@[simp] theorem drive_saveSb (p : Purpose) (l : Line) (v : Level) (s : State) :
    (s.drive p l v).saveSb = s.saveSb := rfl
@[simp] theorem drive_trace (p : Purpose) (l : Line) (v : Level) (s : State) :
    (s.drive p l v).trace = s.trace ++ [.write l v] := rfl
@[simp] theorem drive_chain (p : Purpose) (l : Line) (v : Level) (s : State) :
    (s.drive p l v).chain = s.chain.react s.config p s.lines l v := rfl
@[simp] theorem drive_portA (p : Purpose) (l : Line) (v : Level) (s : State) :
    (s.drive p l v).portA = s.portA := rfl
@[simp] theorem drive_portB (p : Purpose) (l : Line) (v : Level) (s : State) :
    (s.drive p l v).portB = s.portB := rfl
@[simp] theorem drive_issuer (p : Purpose) (l : Line) (v : Level) (s : State) :
    (s.drive p l v).issuer = s.issuer := rfl
@[simp] theorem drive_io (p : Purpose) (l : Line) (v : Level) (s : State) :
    (s.drive p l v).io = s.io := rfl
@[simp] theorem drive_turns (p : Purpose) (l : Line) (v : Level) (s : State) :
    (s.drive p l v).turns = s.turns := rfl

/-! ### `IOFailure` -/

@[simp] theorem raiseIoFailure_config (l : Line) (v : Level) (b : Bool) (s : State) :
    (s.raiseIoFailure l v b).config = s.config := rfl
@[simp] theorem raiseIoFailure_lines (l : Line) (v : Level) (b : Bool) (s : State) :
    (s.raiseIoFailure l v b).lines = if b then s.lines.set l v else s.lines := rfl
@[simp] theorem raiseIoFailure_guard (l : Line) (v : Level) (b : Bool) (s : State) :
    (s.raiseIoFailure l v b).guard = s.guard := rfl
@[simp] theorem raiseIoFailure_fatal (l : Line) (v : Level) (b : Bool) (s : State) :
    (s.raiseIoFailure l v b).fatal = true := rfl
@[simp] theorem raiseIoFailure_failure (l : Line) (v : Level) (b : Bool) (s : State) :
    (s.raiseIoFailure l v b).failure = some (l, v) := rfl
@[simp] theorem raiseIoFailure_saveSm (l : Line) (v : Level) (b : Bool) (s : State) :
    (s.raiseIoFailure l v b).saveSm = s.saveSm := rfl
@[simp] theorem raiseIoFailure_saveSb (l : Line) (v : Level) (b : Bool) (s : State) :
    (s.raiseIoFailure l v b).saveSb = s.saveSb := rfl
@[simp] theorem raiseIoFailure_trace (l : Line) (v : Level) (b : Bool) (s : State) :
    (s.raiseIoFailure l v b).trace = s.trace := rfl
@[simp] theorem raiseIoFailure_chain (l : Line) (v : Level) (b : Bool) (s : State) :
    (s.raiseIoFailure l v b).chain = s.chain := rfl
@[simp] theorem raiseIoFailure_portA (l : Line) (v : Level) (b : Bool) (s : State) :
    (s.raiseIoFailure l v b).portA = s.portA := rfl
@[simp] theorem raiseIoFailure_portB (l : Line) (v : Level) (b : Bool) (s : State) :
    (s.raiseIoFailure l v b).portB = s.portB := rfl
@[simp] theorem raiseIoFailure_issuer (l : Line) (v : Level) (b : Bool) (s : State) :
    (s.raiseIoFailure l v b).issuer = s.issuer := rfl
@[simp] theorem raiseIoFailure_io (l : Line) (v : Level) (b : Bool) (s : State) :
    (s.raiseIoFailure l v b).io = s.io := rfl
@[simp] theorem raiseIoFailure_turns (l : Line) (v : Level) (b : Bool) (s : State) :
    (s.raiseIoFailure l v b).turns = s.turns := rfl

/-! ### Drawing the collaborator's answer -/

@[simp] theorem drawIo_config (s : State) :
    (s.drawIo).config = s.config := by unfold State.drawIo; split <;> rfl
@[simp] theorem drawIo_lines (s : State) :
    (s.drawIo).lines = s.lines := by unfold State.drawIo; split <;> rfl
@[simp] theorem drawIo_guard (s : State) :
    (s.drawIo).guard = s.guard := by unfold State.drawIo; split <;> rfl
@[simp] theorem drawIo_fatal (s : State) :
    (s.drawIo).fatal = s.fatal := by unfold State.drawIo; split <;> rfl
@[simp] theorem drawIo_failure (s : State) :
    (s.drawIo).failure = s.failure := by unfold State.drawIo; split <;> rfl
@[simp] theorem drawIo_saveSm (s : State) :
    (s.drawIo).saveSm = s.saveSm := by unfold State.drawIo; split <;> rfl
@[simp] theorem drawIo_saveSb (s : State) :
    (s.drawIo).saveSb = s.saveSb := by unfold State.drawIo; split <;> rfl
@[simp] theorem drawIo_trace (s : State) :
    (s.drawIo).trace = s.trace := by unfold State.drawIo; split <;> rfl
@[simp] theorem drawIo_chain (s : State) :
    (s.drawIo).chain = s.chain := by unfold State.drawIo; split <;> rfl
@[simp] theorem drawIo_portA (s : State) :
    (s.drawIo).portA = s.portA := by unfold State.drawIo; split <;> rfl
@[simp] theorem drawIo_portB (s : State) :
    (s.drawIo).portB = s.portB := by unfold State.drawIo; split <;> rfl
@[simp] theorem drawIo_issuer (s : State) :
    (s.drawIo).issuer = s.issuer := by unfold State.drawIo; split <;> rfl
@[simp] theorem drawIo_io (s : State) :
    (s.drawIo).io = if s.config.ioCanFail then s.io.next else s.io := by unfold State.drawIo; split <;> rfl
@[simp] theorem drawIo_turns (s : State) :
    (s.drawIo).turns = s.turns := by unfold State.drawIo; split <;> rfl

/-! ### A requester's record -/

@[simp] theorem setPort_config (r : Requester) (p : Port) (s : State) :
    (s.setPort r p).config = s.config := by cases r <;> rfl
@[simp] theorem setPort_lines (r : Requester) (p : Port) (s : State) :
    (s.setPort r p).lines = s.lines := by cases r <;> rfl
@[simp] theorem setPort_guard (r : Requester) (p : Port) (s : State) :
    (s.setPort r p).guard = s.guard := by cases r <;> rfl
@[simp] theorem setPort_fatal (r : Requester) (p : Port) (s : State) :
    (s.setPort r p).fatal = s.fatal := by cases r <;> rfl
@[simp] theorem setPort_failure (r : Requester) (p : Port) (s : State) :
    (s.setPort r p).failure = s.failure := by cases r <;> rfl
@[simp] theorem setPort_saveSm (r : Requester) (p : Port) (s : State) :
    (s.setPort r p).saveSm = s.saveSm := by cases r <;> rfl
@[simp] theorem setPort_saveSb (r : Requester) (p : Port) (s : State) :
    (s.setPort r p).saveSb = s.saveSb := by cases r <;> rfl
@[simp] theorem setPort_trace (r : Requester) (p : Port) (s : State) :
    (s.setPort r p).trace = s.trace := by cases r <;> rfl
@[simp] theorem setPort_chain (r : Requester) (p : Port) (s : State) :
    (s.setPort r p).chain = s.chain := by cases r <;> rfl
@[simp] theorem setPort_portA (r : Requester) (p : Port) (s : State) :
    (s.setPort r p).portA = if r = .a then p else s.portA := by cases r <;> rfl
@[simp] theorem setPort_portB (r : Requester) (p : Port) (s : State) :
    (s.setPort r p).portB = if r = .b then p else s.portB := by cases r <;> rfl
@[simp] theorem setPort_issuer (r : Requester) (p : Port) (s : State) :
    (s.setPort r p).issuer = s.issuer := by cases r <;> rfl
@[simp] theorem setPort_io (r : Requester) (p : Port) (s : State) :
    (s.setPort r p).io = s.io := by cases r <;> rfl
@[simp] theorem setPort_turns (r : Requester) (p : Port) (s : State) :
    (s.setPort r p).turns = s.turns := by cases r <;> rfl
@[simp] theorem port_setPort (r q : Requester) (p : Port) (s : State) :
    (s.setPort r p).port q = if q = r then p else s.port q := by cases r <;> cases q <;> rfl

/-! ### `advance` -/

@[simp] theorem advance_config (s : State) :
    (s.advance).config = s.config := by
  simp [State.advance]
@[simp] theorem advance_lines (s : State) :
    (s.advance).lines = s.lines := by
  simp [State.advance]
@[simp] theorem advance_guard (s : State) :
    (s.advance).guard = s.guard := by
  simp [State.advance]
@[simp] theorem advance_fatal (s : State) :
    (s.advance).fatal = s.fatal := by
  simp [State.advance]
@[simp] theorem advance_failure (s : State) :
    (s.advance).failure = s.failure := by
  simp [State.advance]
@[simp] theorem advance_saveSm (s : State) :
    (s.advance).saveSm = s.saveSm := by
  simp [State.advance]
@[simp] theorem advance_saveSb (s : State) :
    (s.advance).saveSb = s.saveSb := by
  simp [State.advance]
@[simp] theorem advance_trace (s : State) :
    (s.advance).trace = s.trace := by
  simp [State.advance]
@[simp] theorem advance_chain (s : State) :
    (s.advance).chain = s.chain := by
  simp [State.advance]
@[simp] theorem advance_portA (s : State) :
    (s.advance).portA = if s.issuer = .a then
      { s.portA with cp := s.portA.cp + 1 } else s.portA := by
  cases h : s.issuer <;> simp [State.advance, State.port, h]
@[simp] theorem advance_portB (s : State) :
    (s.advance).portB = if s.issuer = .b then
      { s.portB with cp := s.portB.cp + 1 } else s.portB := by
  cases h : s.issuer <;> simp [State.advance, State.port, h]
@[simp] theorem advance_issuer (s : State) :
    (s.advance).issuer = s.issuer := by
  simp [State.advance]
@[simp] theorem advance_io (s : State) :
    (s.advance).io = s.io := by
  simp [State.advance]
@[simp] theorem advance_turns (s : State) :
    (s.advance).turns = s.turns := by
  simp [State.advance]

/-! ### `answer` -/

@[simp] theorem answer_config (x : Answer) (s : State) :
    (s.answer x).config = s.config := by
  simp [State.answer]
@[simp] theorem answer_lines (x : Answer) (s : State) :
    (s.answer x).lines = s.lines := by
  simp [State.answer]
@[simp] theorem answer_guard (x : Answer) (s : State) :
    (s.answer x).guard = s.guard := by
  simp [State.answer]
@[simp] theorem answer_fatal (x : Answer) (s : State) :
    (s.answer x).fatal = s.fatal := by
  simp [State.answer]
@[simp] theorem answer_failure (x : Answer) (s : State) :
    (s.answer x).failure = s.failure := by
  simp [State.answer]
@[simp] theorem answer_saveSm (x : Answer) (s : State) :
    (s.answer x).saveSm = s.saveSm := by
  simp [State.answer]
@[simp] theorem answer_saveSb (x : Answer) (s : State) :
    (s.answer x).saveSb = s.saveSb := by
  simp [State.answer]
@[simp] theorem answer_trace (x : Answer) (s : State) :
    (s.answer x).trace = s.trace := by
  simp [State.answer]
@[simp] theorem answer_chain (x : Answer) (s : State) :
    (s.answer x).chain = s.chain := by
  simp [State.answer]
@[simp] theorem answer_portA (x : Answer) (s : State) :
    (s.answer x).portA = if s.issuer = .a then
      { s.portA with cp := s.portA.cp + 1, answers := s.portA.answers ++ [x] } else s.portA := by
  cases h : s.issuer <;> simp [State.answer, State.port, h]
@[simp] theorem answer_portB (x : Answer) (s : State) :
    (s.answer x).portB = if s.issuer = .b then
      { s.portB with cp := s.portB.cp + 1, answers := s.portB.answers ++ [x] } else s.portB := by
  cases h : s.issuer <;> simp [State.answer, State.port, h]
@[simp] theorem answer_issuer (x : Answer) (s : State) :
    (s.answer x).issuer = s.issuer := by
  simp [State.answer]
@[simp] theorem answer_io (x : Answer) (s : State) :
    (s.answer x).io = s.io := by
  simp [State.answer]
@[simp] theorem answer_turns (x : Answer) (s : State) :
    (s.answer x).turns = s.turns := by
  simp [State.answer]

/-! ### The lines -/

@[simp] theorem set_clk_clk (ls : Lines) (v : Level) : (ls.set .clk v).clk = v := rfl
@[simp] theorem set_clk_data (ls : Lines) (v : Level) : (ls.set .clk v).data = ls.data := rfl
@[simp] theorem set_clk_le (ls : Lines) (v : Level) : (ls.set .clk v).le = ls.le := rfl
@[simp] theorem set_clk_oe (ls : Lines) (v : Level) : (ls.set .clk v).oe = ls.oe := rfl
@[simp] theorem set_data_clk (ls : Lines) (v : Level) : (ls.set .data v).clk = ls.clk := rfl
@[simp] theorem set_data_data (ls : Lines) (v : Level) : (ls.set .data v).data = v := rfl
@[simp] theorem set_data_le (ls : Lines) (v : Level) : (ls.set .data v).le = ls.le := rfl
@[simp] theorem set_data_oe (ls : Lines) (v : Level) : (ls.set .data v).oe = ls.oe := rfl
@[simp] theorem set_le_clk (ls : Lines) (v : Level) : (ls.set .le v).clk = ls.clk := rfl
@[simp] theorem set_le_data (ls : Lines) (v : Level) : (ls.set .le v).data = ls.data := rfl
@[simp] theorem set_le_le (ls : Lines) (v : Level) : (ls.set .le v).le = v := rfl
@[simp] theorem set_le_oe (ls : Lines) (v : Level) : (ls.set .le v).oe = ls.oe := rfl
@[simp] theorem set_oe_clk (ls : Lines) (v : Level) : (ls.set .oe v).clk = ls.clk := rfl
@[simp] theorem set_oe_data (ls : Lines) (v : Level) : (ls.set .oe v).data = ls.data := rfl
@[simp] theorem set_oe_le (ls : Lines) (v : Level) : (ls.set .oe v).le = ls.le := rfl
@[simp] theorem set_oe_oe (ls : Lines) (v : Level) : (ls.set .oe v).oe = v := rfl

theorem get_set (ls : Lines) (l k : Line) (v : Level) :
    (ls.set l v).get k = if k = l then v else ls.get k := by cases l <;> cases k <;> rfl

end Sys2Proof.Machine
end

