-- ==== Sys2Proof/Laws/Perform.lean ====
section
/-! SUPPORT. What the lines of a rule do, said once: with no failed write they do what `quietAll` says; with a
failed one they stop there (R7, R112). -/

namespace Sys2Proof.Machine

/-! ### The collaborator's answers -/

theorem ioAnswerAt_zero (s : State) : s.ioAnswerAt 0 = s.ioAnswer := by
  simp [State.ioAnswerAt, State.ioAnswer, Draws.nth]

theorem ioAnswerAt_succ (k : Nat) (s : State) : s.ioAnswerAt (k + 1) = s.drawIo.ioAnswerAt k := by
  by_cases h : s.config.ioCanFail <;> simp [State.ioAnswerAt, Draws.nth, h]

/-- The coming answers depend on the configuration and the draws alone. -/
theorem ioAnswerAt_congr {s t : State} (hc : t.config = s.config) (hi : t.io = s.io) (k : Nat) :
    t.ioAnswerAt k = s.ioAnswerAt k := by simp [State.ioAnswerAt, hc, hi]

/-! ### One line of a rule -/

/-- Whether a line of a rule writes a line. -/
def Act.writes : Act → Bool
  | .line _ _ => true
  | .latchPulse _ => true
  | .modeLevel _ => true
  | .hold _ => false
  | .saveSm => false
  | .restoreSm => true
  | .saveSb => false
  | .restoreSb => true

/-- The events a line of a rule appends when no write fails. -/
def Act.events (a : Act) (s : State) : List Event :=
  match a with
  | .line l v => [.write l v]
  | .latchPulse v => [.write .le v]
  | .modeLevel v => [.write .le v]
  | .hold w => [.hold w]
  | .saveSm => []
  | .restoreSm => [.write .oe s.saveSm]
  | .saveSb => []
  | .restoreSb => [.write .oe s.saveSb]

/-- One line of a rule when its write does not fail. -/
def State.quiet (s : State) (a : Act) : State :=
  match a with
  | .line l v => s.drawIo.drive .plain l v
  | .latchPulse v => s.drawIo.drive .latchPulse .le v
  | .modeLevel v => s.drawIo.drive .modeLevel .le v
  | .hold w => { s with trace := s.trace ++ [.hold w] }
  | .saveSm => { s with saveSm := s.lines.oe }
  | .restoreSm => s.drawIo.drive .plain .oe s.saveSm
  | .saveSb => { s with saveSb := s.lines.oe }
  | .restoreSb => s.drawIo.drive .plain .oe s.saveSb

/-- The lines of a rule when no write fails. -/
def State.quietAll (as : List Act) (s : State) : State := as.foldl State.quiet s

/-- The number of line writes among the lines of a rule. -/
def writeCount (as : List Act) : Nat := as.countP Act.writes

/-- The events of the lines of a rule when no write fails. -/
def eventsOf : List Act → State → List Event
  | [], _ => []
  | a :: as, s => a.events s ++ eventsOf as (s.quiet a)

@[simp] theorem quietAll_nil (s : State) : s.quietAll [] = s := rfl

@[simp] theorem quietAll_cons (a : Act) (as : List Act) (s : State) :
    s.quietAll (a :: as) = (s.quiet a).quietAll as := rfl

theorem quietAll_append (as bs : List Act) (s : State) :
    s.quietAll (as ++ bs) = (s.quietAll as).quietAll bs := by simp [State.quietAll]

theorem eventsOf_append (as bs : List Act) (s : State) :
    eventsOf (as ++ bs) s = eventsOf as s ++ eventsOf bs (s.quietAll as) := by
  induction as generalizing s with
  | nil => rfl
  | cons a as ih => simp [eventsOf, ih]

theorem writeCount_append (as bs : List Act) : writeCount (as ++ bs) = writeCount as + writeCount bs := by
  simp [writeCount]

/-- What one line of a rule leaves alone when its write does not fail. -/
theorem quiet_untouched (s : State) (a : Act) :
    (s.quiet a).config = s.config ∧ (s.quiet a).guard = s.guard ∧ (s.quiet a).fatal = s.fatal ∧
    (s.quiet a).failure = s.failure ∧ (s.quiet a).portA = s.portA ∧ (s.quiet a).portB = s.portB ∧
    (s.quiet a).issuer = s.issuer ∧ (s.quiet a).turns = s.turns := by
  cases a <;> simp [State.quiet]

theorem quietAll_untouched (as : List Act) (s : State) :
    (s.quietAll as).config = s.config ∧ (s.quietAll as).guard = s.guard ∧
    (s.quietAll as).fatal = s.fatal ∧ (s.quietAll as).failure = s.failure ∧
    (s.quietAll as).portA = s.portA ∧ (s.quietAll as).portB = s.portB ∧
    (s.quietAll as).issuer = s.issuer ∧ (s.quietAll as).turns = s.turns := by
  induction as generalizing s with
  | nil => simp
  | cons a as ih =>
    obtain ⟨h1, h2, h3, h4, h5, h6, h7, h8⟩ := quiet_untouched s a
    simpa [h1, h2, h3, h4, h5, h6, h7, h8] using ih (s.quiet a)

@[simp] theorem quietAll_config (as : List Act) (s : State) : (s.quietAll as).config = s.config :=
  (quietAll_untouched as s).1
@[simp] theorem quietAll_guard (as : List Act) (s : State) : (s.quietAll as).guard = s.guard :=
  (quietAll_untouched as s).2.1
@[simp] theorem quietAll_fatal (as : List Act) (s : State) : (s.quietAll as).fatal = s.fatal :=
  (quietAll_untouched as s).2.2.1
@[simp] theorem quietAll_failure (as : List Act) (s : State) : (s.quietAll as).failure = s.failure :=
  (quietAll_untouched as s).2.2.2.1
@[simp] theorem quietAll_portA (as : List Act) (s : State) : (s.quietAll as).portA = s.portA :=
  (quietAll_untouched as s).2.2.2.2.1
@[simp] theorem quietAll_portB (as : List Act) (s : State) : (s.quietAll as).portB = s.portB :=
  (quietAll_untouched as s).2.2.2.2.2.1
@[simp] theorem quietAll_issuer (as : List Act) (s : State) : (s.quietAll as).issuer = s.issuer :=
  (quietAll_untouched as s).2.2.2.2.2.2.1
@[simp] theorem quietAll_turns (as : List Act) (s : State) : (s.quietAll as).turns = s.turns :=
  (quietAll_untouched as s).2.2.2.2.2.2.2

@[simp] theorem quiet_trace (s : State) (a : Act) : (s.quiet a).trace = s.trace ++ a.events s := by
  cases a <;> simp [State.quiet, Act.events]

/-- The trace grows by the events of the rule. -/
theorem quietAll_trace (as : List Act) (s : State) :
    (s.quietAll as).trace = s.trace ++ eventsOf as s := by
  induction as generalizing s with
  | nil => simp [eventsOf]
  | cons a as ih => simp [eventsOf, ih]

theorem replay_append (ls : Lines) (xs ys : List Event) :
    replay ls (xs ++ ys) = replay (replay ls xs) ys := by
  induction xs generalizing ls with
  | nil => rfl
  | cons x xs ih => cases x <;> simp [replay, ih]

theorem quiet_lines (s : State) (a : Act) : (s.quiet a).lines = replay s.lines (a.events s) := by
  cases a <;> simp [State.quiet, Act.events, replay]

/-- The lines end where the events of the rule take them. -/
theorem quietAll_lines (as : List Act) (s : State) :
    (s.quietAll as).lines = replay s.lines (eventsOf as s) := by
  induction as generalizing s with
  | nil => rfl
  | cons a as ih => simp [eventsOf, ih, replay_append, quiet_lines]

theorem writesIn_append (xs ys : List Event) : writesIn (xs ++ ys) = writesIn xs + writesIn ys := by
  simp [writesIn]

theorem writesIn_events (a : Act) (s : State) :
    writesIn (a.events s) = if a.writes then 1 else 0 := by
  cases a <;> rfl

/-- A rule makes as many writes as there are write events among its events. -/
theorem writesIn_eventsOf (as : List Act) (s : State) : writesIn (eventsOf as s) = writeCount as := by
  induction as generalizing s with
  | nil => rfl
  | cons a as ih =>
    rw [eventsOf, writesIn_append, ih, writesIn_events, writeCount, writeCount, List.countP_cons]
    omega

/-- A line of a rule that writes nothing is the same with and without a collaborator that fails. -/
theorem act_of_no_write {a : Act} (h : a.writes = false) (s : State) : s.act a = s.quiet a := by
  cases a <;> simp_all [Act.writes, State.act, State.quiet]

/-- A line of a rule whose write is performed. -/
theorem act_of_ok (a : Act) {s : State} (h : s.ioAnswer = .ok) : s.act a = s.quiet a := by
  cases a <;> simp [State.act, State.quiet, State.writeLine, h]

/-- The write a line of a rule makes. -/
theorem act_writeLine {a : Act} (hw : a.writes = true) (s : State) :
    ∃ p l v, a.events s = [.write l v] ∧ s.act a = s.writeLine p l v := by
  cases a <;> first | exact ⟨_, _, _, rfl, rfl⟩ | simp [Act.writes] at hw

/-- A line of a rule whose write fails. -/
theorem act_of_fail {a : Act} (hw : a.writes = true) {s : State} (h : s.ioAnswer ≠ .ok) :
    ∃ l v b, a.events s = [.write l v] ∧ s.act a = s.drawIo.raiseIoFailure l v b := by
  obtain ⟨p, l, v, he, ha⟩ := act_writeLine hw s
  cases hio : s.ioAnswer with
  | ok => exact absurd hio h
  | failKeepsOld => exact ⟨l, v, false, he, by simp [ha, State.writeLine, hio]⟩
  | failTakesNew => exact ⟨l, v, true, he, by simp [ha, State.writeLine, hio]⟩

/-- After a write the next answer comes up, after anything else the same. -/
theorem quiet_ioAnswerAt (k : Nat) (a : Act) (s : State) :
    (s.quiet a).ioAnswerAt k = s.ioAnswerAt (if a.writes then k + 1 else k) := by
  cases a <;> simp only [Act.writes, if_true, Bool.false_eq_true, if_false, ioAnswerAt_succ] <;>
    exact ioAnswerAt_congr rfl rfl k

/-! ### The lines of a rule in order -/

theorem perform_of_fatal {s : State} (h : s.fatal = true) (as : List Act) : perform as s = s := by
  cases as <;> simp [perform, h]

theorem perform_append (as bs : List Act) (s : State) :
    perform (as ++ bs) s = perform bs (perform as s) := by
  induction as generalizing s with
  | nil => rfl
  | cons a as ih =>
    by_cases h : s.fatal = true
    · simp [perform, h, perform_of_fatal h]
    · simp [perform, h, ih]

/-- A rule none of whose writes fails (R7). -/
theorem perform_of_ok (as : List Act) {s : State} (hf : s.fatal = false)
    (h : ∀ k < writeCount as, s.ioAnswerAt k = .ok) : perform as s = s.quietAll as := by
  induction as generalizing s with
  | nil => rfl
  | cons a as ih =>
    have hact : s.act a = s.quiet a := by
      by_cases hw : a.writes = true
      · exact act_of_ok a (by rw [← ioAnswerAt_zero]; exact h 0 (by simp [writeCount, hw]))
      · exact act_of_no_write (by simpa using hw) s
    have hq : (s.quiet a).fatal = false := by rw [(quiet_untouched s a).2.2.1, hf]
    simp only [perform, hf, Bool.false_eq_true, if_false, hact, quietAll_cons]
    refine ih hq (fun k hk => ?_)
    rw [quiet_ioAnswerAt]
    refine h _ ?_
    simp only [writeCount, List.countP_cons] at hk ⊢
    split <;> omega

/-- A rule whose `n`-th write fails (R112): what was done before it, and the failure. -/
theorem perform_of_fail (as : List Act) {s : State} {n : Nat} (hf : s.fatal = false)
    (hn : n < writeCount as) (hok : ∀ k < n, s.ioAnswerAt k = .ok) (hbad : s.ioAnswerAt n ≠ .ok) :
    ∃ done l v b rest, as = done ++ rest ∧
      eventsOf done s = beforeWrite n (eventsOf as s) ∧ nthWrite n (eventsOf as s) = some (l, v) ∧
      perform as s = (s.quietAll done).drawIo.raiseIoFailure l v b := by
  induction as generalizing s n with
  | nil => simp [writeCount] at hn
  | cons a as ih =>
    have hq : (s.quiet a).fatal = false := by rw [(quiet_untouched s a).2.2.1, hf]
    by_cases hw : a.writes = true
    · cases n with
      | zero =>
        obtain ⟨l, v, b, he, ha⟩ := act_of_fail hw (s := s) (by rwa [← ioAnswerAt_zero])
        refine ⟨[], l, v, b, a :: as, rfl, ?_, ?_, ?_⟩
        · simp [eventsOf, he, beforeWrite]
        · simp [eventsOf, he, nthWrite]
        · rw [perform, if_neg (by simp [hf]), ha, perform_of_fatal (by simp)]; rfl
      | succ n =>
        have hact : s.act a = s.quiet a :=
          act_of_ok a (by rw [← ioAnswerAt_zero]; exact hok 0 (by omega))
        obtain ⟨done, l, v, b, rest, h1, h2, h3, h4⟩ := ih (s := s.quiet a) (n := n) hq
          (by simp [writeCount, hw] at hn ⊢; omega)
          (fun k hk => by rw [quiet_ioAnswerAt, hw]; exact hok _ (by simp; omega))
          (by rw [quiet_ioAnswerAt, hw]; exact hbad)
        obtain ⟨l', v', he⟩ : ∃ l' v', a.events s = [.write l' v'] := by
          cases a <;> simp_all [Act.events, Act.writes]
        refine ⟨a :: done, l, v, b, rest, by simp [h1], ?_, ?_, ?_⟩
        · simp [eventsOf, he, beforeWrite, h2]
        · simp [eventsOf, he, nthWrite, h3]
        · simp [perform, hf, hact, h4]
    · have hw' : a.writes = false := by simpa using hw
      obtain ⟨done, l, v, b, rest, h1, h2, h3, h4⟩ := ih (s := s.quiet a) (n := n) hq
        (by simpa [writeCount, hw'] using hn)
        (fun k hk => by rw [quiet_ioAnswerAt, hw']; exact hok _ hk)
        (by rw [quiet_ioAnswerAt, hw']; exact hbad)
      refine ⟨a :: done, l, v, b, rest, by simp [h1], ?_, ?_, ?_⟩
      · cases a <;> simp_all [Act.events, Act.writes, eventsOf, beforeWrite]
      · cases a <;> simp_all [Act.events, Act.writes, eventsOf, nthWrite]
      · simp [perform, hf, act_of_no_write hw', h4]

/-- The events before a write are a first part of the events. -/
theorem beforeWrite_prefix (n : Nat) (evs : List Event) : beforeWrite n evs <+: evs := by
  induction evs generalizing n with
  | nil => cases n <;> exact List.prefix_refl _
  | cons e es ih => cases e <;> cases n <;> simp [beforeWrite, ih]

/-- Before the `n`-th write there are at most `n` writes. -/
theorem writesIn_beforeWrite_le (n : Nat) (evs : List Event) : writesIn (beforeWrite n evs) ≤ n := by
  induction evs generalizing n with
  | nil => cases n <;> simp [beforeWrite, writesIn]
  | cons e es ih =>
    unfold writesIn at ih ⊢
    cases e with
    | hold w => cases n <;> (rw [beforeWrite, List.countP_cons]; exact ih _)
    | write l v =>
      cases n with
      | zero => simp [beforeWrite]
      | succ n => rw [beforeWrite, List.countP_cons]; exact Nat.succ_le_succ (ih n)

/-- Either no write of a rule fails, or there is a first one that does. -/
theorem ok_or_first_fail (s : State) (m : Nat) :
    (∀ k < m, s.ioAnswerAt k = .ok) ∨
    ∃ n < m, (∀ k < n, s.ioAnswerAt k = .ok) ∧ s.ioAnswerAt n ≠ .ok := by
  induction m with
  | zero => exact .inl (by simp)
  | succ m ih =>
    rcases ih with h | ⟨n, hn, h⟩
    · by_cases hm : s.ioAnswerAt m = .ok
      · refine .inl (fun k hk => ?_)
        rcases Nat.lt_succ_iff_lt_or_eq.mp hk with hk | rfl
        · exact h k hk
        · exact hm
      · exact .inr ⟨m, by omega, h, hm⟩
    · exact .inr ⟨n, by omega, h⟩

/-- Everything a line write can do: it is performed, or it fails. -/
theorem writeLine_cases (P : State → Prop) (p : Purpose) (l : Line) (v : Level) (s : State)
    (hdrive : P (s.drawIo.drive p l v)) (hfail : ∀ b, P (s.drawIo.raiseIoFailure l v b)) :
    P (s.writeLine p l v) := by
  unfold State.writeLine
  split
  · exact hdrive
  · exact hfail false
  · exact hfail true

/-- A property that every line of a rule keeps while FATAL = 0 is kept by the rule, however it ends. -/
theorem perform_induct {P : State → Prop} (as : List Act)
    (h : ∀ a ∈ as, ∀ s, s.fatal = false → P s → P (s.act a)) {s : State} (hs : P s) :
    P (perform as s) := by
  induction as generalizing s with
  | nil => exact hs
  | cons a as ih =>
    by_cases hf : s.fatal = true
    · simpa [perform, hf] using hs
    · simp only [perform, hf]
      exact ih (fun b hb => h b (List.mem_cons_of_mem _ hb))
        (h a (List.mem_cons_self ..) s (by simpa using hf) hs)

end Sys2Proof.Machine
end

