-- ==== Sys2Proof/Laws/Scripts.lean ====
section
/-! SUPPORT. The scripts of the commands append the events the spec writes out (R80 to R103). -/

namespace Sys2Proof.Machine

/-! ### Event lists -/

theorem serialEvents_cons (b : Level) (bs : List Level) :
    serialEvents (b :: bs) = serialEvents bs ++ sendBitEvents b := by simp [serialEvents]

@[simp] theorem serialEvents_nil : serialEvents [] = [] := rfl

/-- The reversal is over the whole operand (R83). -/
theorem serialEvents_append (xs ys : List Level) :
    serialEvents (xs ++ ys) = serialEvents ys ++ serialEvents xs := by simp [serialEvents]

@[simp] theorem textPatterns_nil (t : CharacterTable) : textPatterns t [] = [] := rfl

theorem textPatterns_cons (t : CharacterTable) (ch : Byte) (chs : List Byte) :
    textPatterns t (ch :: chs) = encodeChar t ch ++ textPatterns t chs := rfl

/-! ### SENDBIT and SENDSERIAL -/

theorem eventsOf_sendBit (b : Level) (s : State) : eventsOf (sendBitScript b) s = sendBitEvents b := rfl

theorem eventsOf_sendSerial (bits : List Level) (s : State) :
    eventsOf (sendSerialScript bits) s = serialEvents bits := by
  induction bits with
  | nil => rfl
  | cons b bs ih =>
    rw [sendSerialScript, eventsOf_append, ih, eventsOf_sendBit, serialEvents_cons]

/-- The lines of a rule that are no save, no restore and no write of LE or OE. -/
def Act.shiftsOnly : Act → Bool
  | .line .clk _ => true
  | .line .data _ => true
  | .line .le _ => false
  | .line .oe _ => false
  | .latchPulse _ => false
  | .modeLevel _ => false
  | .hold _ => true
  | .saveSm => false
  | .restoreSm => false
  | .saveSb => false
  | .restoreSb => false

theorem sendSerial_shiftsOnly (bits : List Level) : ∀ a ∈ sendSerialScript bits, a.shiftsOnly = true := by
  induction bits with
  | nil => simp [sendSerialScript]
  | cons b bs ih =>
    intro a ha
    simp only [sendSerialScript, List.mem_append] at ha
    rcases ha with ha | ha
    · exact ih a ha
    · revert a; simp [sendBitScript, pulseClock, Act.shiftsOnly]

theorem renderShift_shiftsOnly (t : CharacterTable) (text : List Byte) :
    ∀ a ∈ renderShiftScript t text, a.shiftsOnly = true := by
  induction text with
  | nil => simp [renderShiftScript]
  | cons ch chs ih =>
    intro a ha
    simp only [renderShiftScript, List.mem_append] at ha
    exact ha.elim (ih a) (sendSerial_shiftsOnly _ a)

theorem repeat_mem {n : Nat} {as : List Act} {a : Act} (h : a ∈ repeatScript n as) : a ∈ as := by
  induction n with
  | zero => simp [repeatScript] at h
  | succ n ih =>
    simp only [repeatScript, List.mem_append] at h
    exact h.elim id ih

/-- The last piece goes first (R83). -/
theorem sendSerial_append (xs ys : List Level) :
    sendSerialScript (xs ++ ys) = sendSerialScript ys ++ sendSerialScript xs := by
  induction xs with
  | nil => simp [sendSerialScript]
  | cons x xs ih => simp [sendSerialScript, ih]

/-- RENDER's shifting lines are one SENDSERIAL of the concatenated patterns (R101). -/
theorem renderShift_eq (t : CharacterTable) (text : List Byte) :
    renderShiftScript t text = sendSerialScript (textPatterns t text) := by
  induction text with
  | nil => rfl
  | cons ch chs ih => rw [renderShiftScript, textPatterns_cons, sendSerial_append, ih]

/-- A SENDSERIAL repeated is one SENDSERIAL of the sequence repeated. -/
theorem repeat_sendSerial (n : Nat) (bits : List Level) :
    repeatScript n (sendSerialScript bits) = sendSerialScript (List.replicate n bits).flatten := by
  induction n with
  | zero => rfl
  | succ n ih =>
    rw [repeatScript, ih, ← sendSerial_append, List.replicate_succ', List.flatten_append]
    simp

theorem renderEvents_eq (t : CharacterTable) (text : List Byte) :
    renderEvents t text = serialEvents (textPatterns t text) ++ latchEvents := by
  have h : text.reverse.flatMap (fun ch => serialEvents (encodeChar t ch)) =
      serialEvents (textPatterns t text) := by
    induction text with
    | nil => rfl
    | cons ch chs ih =>
      simp only [List.reverse_cons, List.flatMap_append, ih, textPatterns_cons, serialEvents_append,
        List.flatMap_cons, List.flatMap_nil, List.append_nil]
  rw [renderEvents, h]

/-- What shifting leaves alone when no write fails. -/
theorem quiet_shiftsOnly {a : Act} (h : a.shiftsOnly = true) (s : State) :
    (s.quiet a).lines.le = s.lines.le ∧ (s.quiet a).lines.oe = s.lines.oe ∧
    (s.quiet a).saveSm = s.saveSm ∧ (s.quiet a).saveSb = s.saveSb := by
  cases a with
  | line l v => cases l <;> simp_all [Act.shiftsOnly, State.quiet]
  | _ => simp_all [Act.shiftsOnly, State.quiet]

theorem quietAll_shiftsOnly {as : List Act} (h : ∀ a ∈ as, a.shiftsOnly = true) (s : State) :
    (s.quietAll as).lines.le = s.lines.le ∧ (s.quietAll as).lines.oe = s.lines.oe ∧
    (s.quietAll as).saveSm = s.saveSm ∧ (s.quietAll as).saveSb = s.saveSb := by
  induction as generalizing s with
  | nil => simp
  | cons a as ih =>
    obtain ⟨h1, h2, h3, h4⟩ := quiet_shiftsOnly (h a (List.mem_cons_self ..)) s
    simpa [h1, h2, h3, h4] using ih (fun b hb => h b (List.mem_cons_of_mem _ hb)) (s.quiet a)

/-! ### The other commands -/

theorem eventsOf_latch (s : State) : eventsOf latchScript s = latchEvents := rfl

theorem eventsOf_switchMode (special : Level) (m : ChainMode) (s : State) :
    eventsOf (switchModeScript special m) s =
      switchModeEvents (levelFor special m) s.lines.oe := by
  simp [switchModeScript, pulseClock, eventsOf, Act.events, State.quiet, switchModeEvents, clockEvents]

theorem quietAll_switchMode (special : Level) (m : ChainMode) (s : State) :
    (s.quietAll (switchModeScript special m)).lines =
      { s.lines with clk := false, le := false } ∧
    (s.quietAll (switchModeScript special m)).saveSm = s.lines.oe ∧
    (s.quietAll (switchModeScript special m)).saveSb = s.saveSb := by
  simp [switchModeScript, pulseClock, State.quiet, Lines.set]

theorem eventsOf_repeat {as : List Act} {evs : List Event} (h : ∀ s, eventsOf as s = evs) (n : Nat)
    (s : State) : eventsOf (repeatScript n as) s = (List.replicate n evs).flatten := by
  induction n generalizing s with
  | zero => rfl
  | succ n ih =>
    rw [repeatScript, eventsOf_append, h, ih, List.replicate_succ, List.flatten_cons]

theorem eventsOf_setBrightness (special : Level) (code : Byte) (s : State) :
    eventsOf (setBrightnessScript special code) s = brightnessEvents special s.lines.oe code := by
  obtain ⟨hl, -, hb⟩ := quietAll_switchMode special .special (s.quiet .saveSb)
  obtain ⟨-, ho, -, hb'⟩ := quietAll_shiftsOnly
    (fun a ha => sendSerial_shiftsOnly (bitsOf code) a (repeat_mem (n := brightnessRepeat) ha))
    ((s.quiet .saveSb).quietAll (switchModeScript special .special))
  have hq : (s.quiet .saveSb).lines = s.lines := rfl
  have hs : (s.quiet .saveSb).saveSb = s.lines.oe := rfl
  rw [hl] at ho
  rw [hb, hs] at hb'
  simp only [setBrightnessScript, eventsOf_append, eventsOf_switchMode, eventsOf_latch,
    eventsOf_repeat (eventsOf_sendSerial (bitsOf code)), quietAll_append, brightnessEvents,
    brightnessRepeat] at *
  simp only [eventsOf, Act.events, quietAll_cons, quietAll_nil, State.quiet, latchScript,
    List.nil_append, List.append_nil, List.append_assoc, List.cons_append, levelFor,
    drive_saveSb, drawIo_saveSb, drive_lines, drawIo_lines, set_oe_oe] at *
  rw [hb']

/-! ### All commands at once -/

/-- The script of a command that takes the guard. -/
def commandScript (c : Config) : Instr → List Act
  | .encode _ => []
  | .sendbit bit => sendBitScript bit
  | .sendserial bits => sendSerialScript bits
  | .latch => latchScript
  | .switchmode mode => switchModeScript c.leSpecialLevel mode
  | .setbrightness code => setBrightnessScript c.leSpecialLevel code
  | .render text => renderScript c.ctLetters text
  | .enable => [.line .oe false]
  | .disable => [.line .oe true]

/-- Every command but ENCODE is its script under the guard. -/
theorem exec_underGuard {i : Instr} (h : needsGuard i = true) (s : State) :
    exec i s = .next (s.underGuard (commandScript s.config i)) := by
  cases i <;> first | rfl | simp [needsGuard] at h

/-- The script of a command appends the command's events. -/
theorem eventsOf_commandScript (c : Config) (i : Instr) (s : State) :
    eventsOf (commandScript c i) s = commandEvents c s.lines.oe i := by
  cases i with
  | sendserial bits => exact eventsOf_sendSerial bits s
  | switchmode mode => cases mode <;> exact eventsOf_switchMode _ _ s
  | setbrightness code => exact eventsOf_setBrightness _ code s
  | render text =>
    simp only [commandScript, renderScript, commandEvents, renderEvents_eq, renderShift_eq,
      eventsOf_append, eventsOf_sendSerial, eventsOf_latch]
  | _ => rfl

end Sys2Proof.Machine
end

