-- ==== Sys2Proof/Laws/Exec.lean ====
section
/-! SUPPORT. Everything a command can do, said once: it waits, or it runs to its end, or one of its writes
fails (R42, R112, R115). -/

namespace Sys2Proof.Machine

theorem canStart_iff (s : State) : s.canStart = true ↔ s.guard = false ∧ s.fatal = false := by
  simp [State.canStart]

/-- A command that cannot start changes nothing (R42, R115). -/
theorem underGuard_waits {s : State} (h : s.canStart = false) (script : List Act) :
    s.underGuard script = s := by simp [State.underGuard, h]

/-- The state a command runs in: GUARD is 1 (R12). -/
abbrev State.guarded (s : State) : State := { s with guard := true }

theorem guarded_ioAnswerAt (k : Nat) (s : State) : s.guarded.ioAnswerAt k = s.ioAnswerAt k := rfl

/-- A command none of whose writes fails. -/
theorem underGuard_of_runs {s : State} {script : List Act}
    (h : s.RunsThrough (eventsOf script s.guarded)) :
    s.underGuard script = { s.guarded.quietAll script with guard := false }.advance := by
  obtain ⟨hg, hf, hok⟩ := h
  rw [State.underGuard, if_pos ((canStart_iff s).2 ⟨hg, hf⟩),
    perform_of_ok script (s := s.guarded) hf (fun k hk => by
      rw [guarded_ioAnswerAt]
      exact hok k (by rwa [writesIn_eventsOf])),
    State.finish, if_neg (by simp [hf])]

/-- A command whose `n`-th write fails: what was done before it, and the failure. -/
theorem underGuard_of_fails {s : State} {script : List Act} {n : Nat}
    (h : s.FailsAt n (eventsOf script s.guarded)) :
    ∃ done l v b rest, script = done ++ rest ∧
      eventsOf done s.guarded = beforeWrite n (eventsOf script s.guarded) ∧
      nthWrite n (eventsOf script s.guarded) = some (l, v) ∧
      s.underGuard script = (s.guarded.quietAll done).drawIo.raiseIoFailure l v b := by
  obtain ⟨hg, hf, hn, hok, hbad⟩ := h
  obtain ⟨done, l, v, b, rest, h1, h2, h3, h4⟩ := perform_of_fail script (s := s.guarded) hf
    (by rwa [writesIn_eventsOf] at hn)
    (fun k hk => by rw [guarded_ioAnswerAt]; exact hok k hk)
    (by rw [guarded_ioAnswerAt]; exact hbad)
  refine ⟨done, l, v, b, rest, h1, h2, h3, ?_⟩
  rw [State.underGuard, if_pos ((canStart_iff s).2 ⟨hg, hf⟩), h4, State.finish, if_pos (by simp)]

/-- The three ways a command under the guard ends. -/
theorem underGuard_cases (s : State) (script : List Act) :
    s.canStart = false ∨ s.RunsThrough (eventsOf script s.guarded) ∨
    ∃ n, s.FailsAt n (eventsOf script s.guarded) := by
  by_cases hs : s.canStart = true
  · obtain ⟨hg, hf⟩ := (canStart_iff s).1 hs
    rcases ok_or_first_fail s (writesIn (eventsOf script s.guarded)) with h | ⟨n, hn, hok, hbad⟩
    · exact .inr (.inl ⟨hg, hf, h⟩)
    · exact .inr (.inr ⟨n, hg, hf, hn, hok, hbad⟩)
  · exact .inl (by simpa using hs)

theorem underGuard_completed {s : State} {script : List Act}
    (h : s.RunsThrough (eventsOf script s.guarded)) :
    s.Completed (s.underGuard script) (eventsOf script s.guarded) := by
  rw [underGuard_of_runs h]
  have hf := h.2.1
  simp [State.Completed, State.IssuerAdvanced, quietAll_trace, quietAll_lines, hf]

theorem underGuard_ioFailed {s : State} {script : List Act} {n : Nat}
    (h : s.FailsAt n (eventsOf script s.guarded)) :
    s.IoFailed (s.underGuard script) n (eventsOf script s.guarded) := by
  obtain ⟨done, l, v, b, rest, -, h2, h3, h4⟩ := underGuard_of_fails h
  rw [h4]
  refine ⟨by simp, by simp, by simp [quietAll_trace, h2], ⟨l, v, h3, by simp, ?_⟩, by simp, by simp,
    by simp, by simp, by simp⟩
  cases b <;> simp [quietAll_lines, h2]

theorem eventsOf_command (i : Instr) (s : State) :
    eventsOf (commandScript s.config i) s.guarded = commandEvents s.config s.lines.oe i :=
  eventsOf_commandScript s.config i s.guarded

/-- Everything a command that takes the guard can do. -/
theorem exec_cases {i : Instr} (hi : needsGuard i = true) {s t : State} (h : exec i s = .next t) :
    (s.canStart = false ∧ t = s) ∨
    (s.RunsThrough (commandEvents s.config s.lines.oe i) ∧
      s.Completed t (commandEvents s.config s.lines.oe i)) ∨
    ∃ n, s.FailsAt n (commandEvents s.config s.lines.oe i) ∧
      s.IoFailed t n (commandEvents s.config s.lines.oe i) := by
  rw [exec_underGuard hi] at h
  injection h with h
  subst h
  rw [← eventsOf_command]
  rcases underGuard_cases s (commandScript s.config i) with hw | hr | ⟨n, hn⟩
  · exact .inl ⟨hw, underGuard_waits hw _⟩
  · exact .inr (.inl ⟨hr, underGuard_completed hr⟩)
  · exact .inr (.inr ⟨n, hn, underGuard_ioFailed hn⟩)

/-- A property that the lines of a command's script keep is kept by the command, however it ends, if it
does not speak of GUARD and of the issuer's record. -/
theorem underGuard_induct {P : State → Prop} (script : List Act)
    (hact : ∀ a ∈ script, ∀ s, s.fatal = false → P s → P (s.act a))
    (hguard : ∀ s b, P s → P { s with guard := b }) (hadv : ∀ s, P s → P s.advance)
    {s : State} (hs : P s) : P (s.underGuard script) := by
  unfold State.underGuard State.finish
  split
  · have := perform_induct script hact (hguard s true hs)
    split
    · exact this
    · exact hadv _ (hguard _ _ this)
  · exact hs

end Sys2Proof.Machine
end

