-- ==== Sys2Proof/Laws/Chain.lean ====
section
/-! SUPPORT. What the commands do to the chain (R32 to R37), when no write fails: the stages, the registers, and
the recogniser's samples and mode. -/

namespace Sys2Proof.Machine

/-! ### One clock pulse -/

@[simp] theorem shiftIn_length (d : Level) (stage : List Level) : (shiftIn d stage).length = stage.length := by
  simp [shiftIn]

/-- A shift in front of the old stages (R32, R41). -/
theorem shiftIn_eq_take (d : Level) (stage : List Level) :
    shiftIn d stage = (d :: stage).take stage.length := by
  simp [shiftIn, List.dropLast_eq_take]

/-- Shifting after a sequence was shifted puts one more bit in front. -/
theorem shiftIn_take (d : Level) (bits stage : List Level) :
    shiftIn d ((bits ++ stage).take stage.length) = (d :: bits ++ stage).take stage.length := by
  rw [shiftIn_eq_take]
  cases h : stage.length with
  | zero => simp
  | succ n =>
    simp only [List.length_take, List.length_append, h, List.cons_append]
    rw [Nat.min_eq_left (by omega), List.take_succ_cons, List.take_succ_cons, List.take_take,
      Nat.min_eq_left (by omega)]

/-- What is cut off behind a sequence does not matter once the whole is cut. -/
theorem take_append_take (xs ys : List Level) (n : Nat) : (xs ++ ys.take n).take n = (xs ++ ys).take n := by
  rw [List.take_append, List.take_append, List.take_take, Nat.min_eq_left (Nat.sub_le ..)]

/-- One more shift with the same level. -/
theorem shiftIn_replicate (n : Nat) (d : Level) (st : List Level) :
    shiftIn d ((List.replicate n d ++ st).take st.length) =
      (List.replicate (n + 1) d ++ st).take st.length := by
  rw [shiftIn_take]; rfl

theorem shiftIn_three (d : Level) (st : List Level) :
    shiftIn d (shiftIn d (shiftIn d st)) = (List.replicate 3 d ++ st).take st.length := by
  rw [← shiftIn_replicate, ← shiftIn_replicate, ← shiftIn_replicate]; simp

theorem shiftIn_four (d : Level) (st : List Level) :
    shiftIn d (shiftIn d (shiftIn d (shiftIn d st))) = (List.replicate 4 d ++ st).take st.length := by
  rw [shiftIn_three d st, shiftIn_replicate]

theorem shiftIn_five (d : Level) (st : List Level) :
    shiftIn d (shiftIn d (shiftIn d (shiftIn d (shiftIn d st)))) =
      (List.replicate 5 d ++ st).take st.length := by
  rw [shiftIn_four d st, shiftIn_replicate]

/-- The chain has at least one chip (R5), so at least its eight stages. -/
theorem eight_le_stage_of_chainSized {s : State} (h : s.ChainSized) : 8 ≤ s.chain.stage.length := by
  have hn := s.config.nPositions.pos
  rw [h.1]
  omega

/-- The recogniser at one pulse (R36): the samples and the mode it leaves. -/
def sampleStep (special : Level) (x : Level × Level) (p : List (Level × Level) × ChainMode) :
    List (Level × Level) × ChainMode :=
  ((x :: p.1).take 5, (recognise special ((x :: p.1).take 5)).getD p.2)

/-- The recogniser over `n` pulses with the same OE and LE. -/
def sampleSteps (special : Level) (x : Level × Level) :
    Nat → List (Level × Level) × ChainMode → List (Level × Level) × ChainMode
  | 0, p => p
  | n + 1, p => sampleSteps special x n (sampleStep special x p)

theorem sampleSteps_succ (special : Level) (x : Level × Level) (n : Nat)
    (p : List (Level × Level) × ChainMode) :
    sampleSteps special x (n + 1) p = sampleStep special x (sampleSteps special x n p) := by
  induction n generalizing p with
  | zero => rfl
  | succ n ih => rw [sampleSteps, ih, ← sampleSteps]

theorem sampleSteps_add (special : Level) (x : Level × Level) (m n : Nat)
    (p : List (Level × Level) × ChainMode) :
    sampleSteps special x (m + n) p = sampleSteps special x n (sampleSteps special x m p) := by
  induction m generalizing p with
  | zero => simp [sampleSteps]
  | succ m ih => rw [Nat.succ_add, sampleSteps, ih, sampleSteps]

/-- A pulse with OE = 0 completes no pattern (R36). -/
theorem recognise_of_oe_low (special l : Level) (rest : List (Level × Level)) :
    recognise special (((false, l) :: rest).take 5) = none := by
  match rest with
  | [] | [_] | [_, _] | [_, _, _] => rfl
  | _ :: _ :: _ :: _ :: _ => simp [recognise]

theorem sampleSteps_mode_of_oe_low (special l : Level) (n : Nat)
    (p : List (Level × Level) × ChainMode) : (sampleSteps special (false, l) n p).2 = p.2 := by
  induction n generalizing p with
  | zero => rfl
  | succ n ih => rw [sampleSteps, ih, sampleStep, recognise_of_oe_low]; rfl

/-- With LE_SPECIAL_LEVEL = 1, a pulse with LE = 0 after one with LE = 0 never completes the pattern that
selects Special (R90). -/
theorem recognise_of_le_low (x : Level × Level) (rest : List (Level × Level))
    (h : ∀ y ∈ rest.head?, y.2 = false) : recognise true ((x :: rest).take 5) ≠ some .special := by
  unfold recognise
  split
  · rename_i l heq
    cases rest with
    | nil => simp at heq
    | cons y ys =>
      have hy : y.2 = false := h y rfl
      simp only [List.take_succ_cons, List.cons.injEq] at heq
      obtain ⟨-, rfl, -⟩ := heq
      simp only at hy
      subst hy
      simp
  · simp

theorem sampleSteps_le_low (o : Level) (n : Nat) (p : List (Level × Level) × ChainMode)
    (hs : ∀ y ∈ p.1.head?, y.2 = false) (hm : p.2 = .normal) :
    (∀ y ∈ (sampleSteps true (o, false) n p).1.head?, y.2 = false) ∧
    (sampleSteps true (o, false) n p).2 = .normal := by
  induction n generalizing p with
  | zero => exact ⟨hs, hm⟩
  | succ n ih =>
    refine ih _ (by simp [sampleStep]) ?_
    have := recognise_of_le_low (o, false) p.1 hs
    rw [sampleStep]
    cases hr : recognise true (((o, false) :: p.1).take 5) with
    | none => exact hm
    | some m => cases m with
      | normal => rfl
      | special => exact absurd hr this

/-- While the newest three samples were taken with OE = 1, a pulse with OE = 1 completes no pattern (R36). -/
theorem recognise_of_oe_high (special l : Level) (rest : List (Level × Level))
    (h : ∀ x ∈ rest.take 3, x.1 = true) : recognise special (((true, l) :: rest).take 5) = none := by
  match rest with
  | [] | [_] | [_, _] | [_, _, _] => simp [recognise]
  | a :: b :: c :: d :: _ =>
    have hc : c.1 = true := h c (by simp)
    unfold recognise
    split
    · rename_i heq
      simp only [List.take_succ_cons, List.cons.injEq] at heq
      obtain ⟨-, -, -, rfl, -⟩ := heq
      simp at hc
    · rfl

theorem sampleSteps_of_oe_high (special l : Level) (n : Nat) (p : List (Level × Level) × ChainMode)
    (h : ∀ x ∈ p.1.take 3, x.1 = true) :
    (∀ x ∈ (sampleSteps special (true, l) n p).1.take 3, x.1 = true) ∧
    (sampleSteps special (true, l) n p).2 = p.2 := by
  induction n generalizing p with
  | zero => exact ⟨h, rfl⟩
  | succ n ih =>
    have hstep : (sampleStep special (true, l) p).2 = p.2 := by
      rw [sampleStep, recognise_of_oe_high special l p.1 h]; rfl
    rw [sampleSteps, ← hstep]
    refine ih _ (fun x hx => ?_)
    rw [sampleStep, List.take_take, show min 3 5 = 3 from rfl, List.take_succ_cons] at hx
    rcases List.mem_cons.mp hx with rfl | hx
    · rfl
    · exact h x ((List.take_sublist_take_left (by omega)).subset hx)

/-- Pulses with LE = 0 and OE as it is leave a chain in Normal mode there, and begin no switch, if none has been
begun (R36, R90). -/
theorem sampleSteps_of_noSwitchBegun {s : State} (h : s.NoSwitchBegun) (hf : s.fatal = false)
    (hm : s.chain.mode = .normal) (n : Nat) :
    let p := sampleSteps s.config.leSpecialLevel (s.lines.oe, false) n (s.chain.samples, s.chain.mode)
    p.2 = .normal ∧ (s.lines.oe = false ∨
      (s.config.leSpecialLevel = true ∧ ∀ x ∈ p.1.head?, x.2 = false) ∨ ∀ x ∈ p.1.take 3, x.1 = true) := by
  intro p
  cases ho : s.lines.oe with
  | false => exact ⟨by simp only [p, ho, sampleSteps_mode_of_oe_low, hm], .inl rfl⟩
  | true =>
    rcases h with h | ⟨hs, hl⟩ | h3
    · rw [ho] at h; cases h
    · have := sampleSteps_le_low true n (s.chain.samples, s.chain.mode) (hl hf) hm
      simp only [p, ho, hs]
      exact ⟨this.2, .inr (.inl ⟨trivial, this.1⟩)⟩
    · have := sampleSteps_of_oe_high s.config.leSpecialLevel false n (s.chain.samples, s.chain.mode) h3
      simp only [p, ho]
      exact ⟨this.2.trans hm, .inr (.inr this.1)⟩

/-- Five and more pulses with one OE and LE = 0 leave samples that no further such pulse completes. -/
theorem sampleSteps_of_same (special o : Level) (n : Nat) (m : ChainMode) :
    sampleSteps special (o, false) n (List.replicate 5 (o, false), m) =
      (List.replicate 5 (o, false), m) := by
  induction n with
  | zero => rfl
  | succ n ih => rw [sampleSteps]; cases o <;> exact ih

/-! ### SENDBIT and SENDSERIAL -/

theorem clockRise_eq (c : Config) (ls : Lines) (ch : Chain) :
    ch.clockRise c ls =
      { ch with
        stage := shiftIn ls.data ch.stage
        samples := (sampleStep c.leSpecialLevel (ls.oe, ls.le) (ch.samples, ch.mode)).1
        mode := (sampleStep c.leSpecialLevel (ls.oe, ls.le) (ch.samples, ch.mode)).2 } := rfl

/-- What SENDBIT leaves (R80, R32). -/
theorem quietAll_sendBit (b : Level) (s : State) :
    (s.quietAll (sendBitScript b)).lines = { s.lines with data := b, clk := false } ∧
    (s.quietAll (sendBitScript b)).chain =
      if s.lines.clk then s.chain else s.chain.clockRise s.config { s.lines with data := b } := by
  constructor
  · simp [sendBitScript, pulseClock, State.quiet, Lines.set]
  · cases h : s.lines.clk <;>
      simp [sendBitScript, pulseClock, State.quiet, Chain.react, h, Chain.clockRise]

/-- What SENDSERIAL leaves of the chain, from CLK = 0 (R32, R36, R41). -/
theorem quietAll_sendSerial_chain (bits : List Level) (s : State) (h : s.lines.clk = false) :
    (s.quietAll (sendSerialScript bits)).lines.clk = false ∧
    (s.quietAll (sendSerialScript bits)).chain =
      { s.chain with
        stage := (bits ++ s.chain.stage).take s.chain.stage.length
        samples := (sampleSteps s.config.leSpecialLevel (s.lines.oe, s.lines.le) bits.length
          (s.chain.samples, s.chain.mode)).1
        mode := (sampleSteps s.config.leSpecialLevel (s.lines.oe, s.lines.le) bits.length
          (s.chain.samples, s.chain.mode)).2 } := by
  induction bits with
  | nil => simp [sendSerialScript, sampleSteps, h]
  | cons b bs ih =>
    obtain ⟨ih1, ih2⟩ := ih
    obtain ⟨hle, hoe, -, -⟩ := quietAll_shiftsOnly (sendSerial_shiftsOnly bs) s
    obtain ⟨hl, hc⟩ := quietAll_sendBit b (s.quietAll (sendSerialScript bs))
    simp only [sendSerialScript, quietAll_append]
    refine ⟨by rw [hl], ?_⟩
    rw [hc, if_neg (by simp [ih1]), clockRise_eq, ih2]
    simp only [quietAll_config, hle, hoe, List.length_cons, sampleSteps_succ, shiftIn_take,
      List.cons_append]

/-! ### SWITCHMODE -/

@[simp] theorem switchEdge_stage (c : Config) (e : SpecialCommit) (ch : Chain) :
    (ch.switchEdge c e).stage = ch.stage := by unfold Chain.switchEdge; split <;> rfl
@[simp] theorem switchEdge_cfg (c : Config) (e : SpecialCommit) (ch : Chain) :
    (ch.switchEdge c e).cfg = ch.cfg := by unfold Chain.switchEdge; split <;> rfl
@[simp] theorem switchEdge_mode (c : Config) (e : SpecialCommit) (ch : Chain) :
    (ch.switchEdge c e).mode = ch.mode := by unfold Chain.switchEdge; split <;> rfl
@[simp] theorem switchEdge_samples (c : Config) (e : SpecialCommit) (ch : Chain) :
    (ch.switchEdge c e).samples = ch.samples := by unfold Chain.switchEdge; split <;> rfl

/-- In the reference receiver LE = 1 inside SWITCHMODE commits nothing (R37). -/
theorem switchEdge_never {c : Config} (h : c.specialCommit = .never) {e : SpecialCommit}
    (he : e ≠ .never) (ch : Chain) : ch.switchEdge c e = ch := by
  unfold Chain.switchEdge
  exact if_neg (fun hc => he (by rw [← hc.1, h]))

/-- The samples SWITCHMODE leaves, newest first (R36). -/
def switchSamples (level : Level) : List (Level × Level) :=
  [(true, false), (true, level), (true, false), (false, false), (true, false)]

/-- What SWITCHMODE leaves of the chain, from CLK = 0 (R36, R37). -/
theorem quietAll_switchMode_chain (special : Level) (m : ChainMode) (s : State)
    (h : s.lines.clk = false) (hsp : s.config.leSpecialLevel = special) :
    (s.quietAll (switchModeScript special m)).chain.stage =
      (List.replicate 5 s.lines.data ++ s.chain.stage).take s.chain.stage.length ∧
    (s.quietAll (switchModeScript special m)).chain.cfg = s.chain.cfg ∧
    (s.quietAll (switchModeScript special m)).chain.samples = switchSamples (levelFor special m) ∧
    (s.quietAll (switchModeScript special m)).chain.mode = m := by
  rw [← shiftIn_five]
  refine ⟨?_, ?_, ?_, ?_⟩
  · cases hl : levelFor special m <;>
      simp [switchModeScript, pulseClock, State.quiet, Chain.react, h, Chain.clockRise, Lines.set, hl]
  · cases hl : levelFor special m <;>
      simp [switchModeScript, pulseClock, State.quiet, Chain.react, h, Chain.clockRise, Lines.set, hl]
  · cases hl : levelFor special m <;>
      simp [switchModeScript, pulseClock, State.quiet, Chain.react, h, Chain.clockRise, Lines.set, hl,
        switchSamples]
  · cases m <;> cases special <;>
      simp [switchModeScript, pulseClock, State.quiet, Chain.react, h, Chain.clockRise, Lines.set,
        recognise, levelFor, hsp]

/-- The display register after SWITCHMODE: kept, or one of the other two values of U6. -/
theorem quietAll_switchMode_disp (special : Level) (m : ChainMode) (s : State)
    (h : s.lines.clk = false) :
    (s.config.specialCommit = .never →
      (s.quietAll (switchModeScript special m)).chain.disp = s.chain.disp) ∧
    ((s.quietAll (switchModeScript special m)).chain.disp = s.chain.disp ∨
      (s.quietAll (switchModeScript special m)).chain.disp =
        (List.replicate 3 s.lines.data ++ s.chain.stage).take s.chain.stage.length ∨
      (s.quietAll (switchModeScript special m)).chain.disp =
        (List.replicate 4 s.lines.data ++ s.chain.stage).take s.chain.stage.length) := by
  rw [← shiftIn_three, ← shiftIn_four]
  cases hl : levelFor special m with
  | false =>
    simp [switchModeScript, pulseClock, State.quiet, Chain.react, h, Chain.clockRise, Lines.set, hl]
  | true =>
    cases hc : s.config.specialCommit <;>
      simp [switchModeScript, pulseClock, State.quiet, Chain.react, h, Chain.clockRise, Lines.set, hl,
        Chain.switchEdge, hc] <;> split <;> simp

/-! ### One transition -/

/-- Only a transition of CLK shifts and samples (R32, R36). -/
theorem react_of_not_clk (c : Config) (p : Purpose) (ls : Lines) {l : Line} (h : l ≠ .clk) (v : Level)
    (ch : Chain) :
    (ch.react c p ls l v).stage = ch.stage ∧ (ch.react c p ls l v).mode = ch.mode ∧
    (ch.react c p ls l v).samples = ch.samples := by
  cases l with
  | clk => exact absurd rfl h
  | data => exact ⟨rfl, rfl, rfl⟩
  | oe => exact ⟨rfl, rfl, rfl⟩
  | le =>
    simp only [Chain.react]
    split
    · unfold Chain.commit; cases hm : ch.mode <;> simp
    · simp
    · simp
    · exact ⟨rfl, rfl, rfl⟩

/-- Only a LATCH pulse writes the configuration register (R35, R37). -/
theorem react_cfg_of_not_latch (c : Config) {p : Purpose} (h : p ≠ .latchPulse) (ls : Lines) (l : Line)
    (v : Level) (ch : Chain) : (ch.react c p ls l v).cfg = ch.cfg := by
  cases l with
  | clk => simp only [Chain.react]; split <;> rfl
  | data => rfl
  | oe => rfl
  | le =>
    simp only [Chain.react]
    split
    · exact absurd rfl h
    · simp
    · simp
    · rfl

/-- In the reference receiver only a LATCH pulse writes the display register (R33, R37). -/
theorem react_disp_of_not_latch {c : Config} (hc : c.specialCommit = .never) {p : Purpose}
    (h : p ≠ .latchPulse) (ls : Lines) (l : Line) (v : Level) (ch : Chain) :
    (ch.react c p ls l v).disp = ch.disp := by
  cases l with
  | clk => simp only [Chain.react]; split <;> rfl
  | data => rfl
  | oe => rfl
  | le =>
    simp only [Chain.react]
    split
    · exact absurd rfl h
    · rw [switchEdge_never hc (by simp)]
    · rw [switchEdge_never hc (by simp)]
    · rfl

/-- A LATCH pulse in Special mode leaves the display register alone (R35). -/
theorem react_disp_of_special (c : Config) (ls : Lines) (v : Level) {ch : Chain}
    (hm : ch.mode = .special) : (ch.react c .latchPulse ls .le v).disp = ch.disp := by
  simp only [Chain.react]
  split
  · simp [Chain.commit, hm]
  · simp_all
  · simp_all
  · rfl

/-- A transition of CLK or DATA with any purpose commits nothing (R34). -/
theorem react_registers_of_shift (c : Config) (p : Purpose) (ls : Lines) {l : Line} (h : l ≠ .le)
    (v : Level) (ch : Chain) :
    (ch.react c p ls l v).disp = ch.disp ∧ (ch.react c p ls l v).cfg = ch.cfg := by
  cases l with
  | clk => simp only [Chain.react]; split <;> exact ⟨rfl, rfl⟩
  | data => exact ⟨rfl, rfl⟩
  | oe => exact ⟨rfl, rfl⟩
  | le => exact absurd rfl h

/-- The chain keeps its size at every transition (R31). -/
theorem react_sized (c : Config) (p : Purpose) (ls : Lines) (l : Line) (v : Level) {n : Nat} {ch : Chain}
    (h : ch.stage.length = n ∧ ch.disp.length = n ∧ ch.cfg.length = n) :
    (ch.react c p ls l v).stage.length = n ∧ (ch.react c p ls l v).disp.length = n ∧
    (ch.react c p ls l v).cfg.length = n := by
  obtain ⟨h1, h2, h3⟩ := h
  cases l with
  | clk => simp only [Chain.react]; split <;> simp [Chain.clockRise, h1, h2, h3]
  | data => exact ⟨h1, h2, h3⟩
  | oe => exact ⟨h1, h2, h3⟩
  | le =>
    simp only [Chain.react]
    split
    · cases hm : ch.mode <;> simp [Chain.commit, hm, h1, h2, h3]
    · unfold Chain.switchEdge; split <;> simp [h1, h2, h3]
    · unfold Chain.switchEdge; split <;> simp [h1, h2, h3]
    · exact ⟨h1, h2, h3⟩

/-! ### LATCH -/

/-- What LATCH leaves (R84, R33, R35). -/
theorem quietAll_latch (s : State) :
    (s.quietAll latchScript).lines = { s.lines with le := false } ∧
    (s.quietAll latchScript).chain = (if s.lines.le then s.chain else s.chain.commit) ∧
    (s.quietAll latchScript).saveSm = s.saveSm ∧ (s.quietAll latchScript).saveSb = s.saveSb := by
  cases h : s.lines.le <;> simp [latchScript, State.quiet, Lines.set, Chain.react, h]

/-! ### SETBRIGHTNESS -/

/-- The save registers SETBRIGHTNESS leaves (R16, R88): both hold the level OE had at its start. -/
theorem quietAll_setBrightness_saves (special : Level) (code : Byte) (s : State) :
    (s.quietAll (setBrightnessScript special code)).saveSm = s.lines.oe ∧
    (s.quietAll (setBrightnessScript special code)).saveSb = s.lines.oe := by
  have hswitch (m : ChainMode) (u : State) :
      (u.quietAll (switchModeScript special m)).saveSm = u.lines.oe ∧
      (u.quietAll (switchModeScript special m)).saveSb = u.saveSb := (quietAll_switchMode special m u).2
  have hserial (u : State) :
      (u.quietAll (sendSerialScript (List.replicate 9 (bitsOf code)).flatten)).saveSb = u.saveSb :=
    (quietAll_shiftsOnly (sendSerial_shiftsOnly _) u).2.2.2
  have hlatch (u : State) : (u.quietAll latchScript).saveSb = u.saveSb := (quietAll_latch u).2.2.2
  simp only [setBrightnessScript, brightnessRepeat, repeat_sendSerial, quietAll_append, quietAll_cons,
    quietAll_nil, hswitch]
  simp only [State.quiet, drive_lines, drive_saveSb, drawIo_lines, drawIo_saveSb, set_oe_oe, hlatch,
    hserial, hswitch, and_self]

/-- After SWITCHMODE the recogniser stays in the mode over any number of pulses with LE = 0 and one OE
(R36): the samples of the sequence complete no second pattern. -/
theorem sampleSteps_after_switch (special level o : Level) (n : Nat) (m : ChainMode) :
    (sampleSteps special (o, false) n (switchSamples level, m)).2 = m := by
  by_cases h : n < 5
  · interval_cases n <;> cases o <;> cases level <;> rfl
  · obtain ⟨k, rfl⟩ := Nat.exists_eq_add_of_le (not_lt.mp h)
    have h5 : sampleSteps special (o, false) 5 (switchSamples level, m) =
        (List.replicate 5 (o, false), m) := by cases o <;> cases level <;> rfl
    rw [sampleSteps_add, h5, sampleSteps_of_same]

/-- What the lines of SETBRIGHTNESS up to the latch pulse leave, from CLK = 0: Special mode, and the code nine
times over in front of the stages (R88). -/
theorem quietAll_configuration (special : Level) (code : Byte) (s : State) (h : s.lines.clk = false)
    (hsp : s.config.leSpecialLevel = special) :
    ∃ u, s.quietAll (([.saveSb] ++ switchModeScript special .special) ++
        repeatScript brightnessRepeat (sendSerialScript (bitsOf code))) = u ∧
      u.lines.clk = false ∧ u.lines.le = false ∧ u.lines.oe = s.lines.oe ∧
      u.lines.data = code.getLsbD 0 ∧ u.saveSb = s.lines.oe ∧ u.config = s.config ∧
      u.chain.mode = .special ∧ u.chain.cfg = s.chain.cfg ∧
      u.chain.stage = ((List.replicate 9 (bitsOf code)).flatten ++
        (List.replicate 5 s.lines.data ++ s.chain.stage)).take s.chain.stage.length ∧
      (s.config.specialCommit = .never → u.chain.disp = s.chain.disp) := by
  refine ⟨_, rfl, ?_⟩
  have hq : (s.quiet .saveSb).lines = s.lines := rfl
  have hqc : (s.quiet .saveSb).chain = s.chain := rfl
  have hqb : (s.quiet .saveSb).saveSb = s.lines.oe := rfl
  have hqf : (s.quiet .saveSb).config = s.config := rfl
  obtain ⟨hl, -, hb⟩ := quietAll_switchMode special .special (s.quiet .saveSb)
  obtain ⟨hst, hcf, hsa, hmo⟩ := quietAll_switchMode_chain special .special (s.quiet .saveSb)
    (by rw [hq]; exact h) (by rw [hqf]; exact hsp)
  obtain ⟨hd, -⟩ := quietAll_switchMode_disp special .special (s.quiet .saveSb) (by rw [hq]; exact h)
  rw [quietAll_append, quietAll_append, brightnessRepeat, repeat_sendSerial, quietAll_cons, quietAll_nil]
  generalize hv : (s.quiet .saveSb).quietAll (switchModeScript special .special) = v at *
  have hvc : v.config = s.config := by rw [← hv]; simp [hqf]
  obtain ⟨hclk, hch⟩ := quietAll_sendSerial_chain (List.replicate 9 (bitsOf code)).flatten v
    (by rw [hl])
  obtain ⟨hle, hoe, -, hsb⟩ := quietAll_shiftsOnly
    (sendSerial_shiftsOnly (List.replicate 9 (bitsOf code)).flatten) v
  have hdata : (v.quietAll (sendSerialScript (List.replicate 9 (bitsOf code)).flatten)).lines.data =
      code.getLsbD 0 := by
    rw [List.replicate_succ, List.flatten_cons, bitsOf, List.cons_append, sendSerialScript,
      quietAll_append, (quietAll_sendBit _ _).1]
  refine ⟨hclk, by rw [hle, hl], by rw [hoe, hl, hq], hdata, by rw [hsb, hb, hqb], by simp [hvc], ?_, ?_,
    ?_, ?_⟩
  · rw [hch]
    simp only [hsa, hmo, hl]
    exact sampleSteps_after_switch _ _ _ _ _
  · rw [hch]; simp only [hcf, hqc]
  · rw [hch]
    simp only [hst, hqc, hq, List.length_take, List.length_append]
    rw [Nat.min_eq_left (by omega), take_append_take]
  · intro hn
    rw [hch]
    simp only [hd (by rw [hqf]; exact hn), hqc]

/-- What SETBRIGHTNESS leaves, from CLK = 0 (R88, R89, R35, R37). -/
theorem quietAll_setBrightness (special : Level) (code : Byte) (s : State) (h : s.lines.clk = false)
    (hsp : s.config.leSpecialLevel = special) :
    ∃ u, s.quietAll (setBrightnessScript special code) = u ∧
      u.chain.mode = .normal ∧
      u.chain.cfg = ((List.replicate 9 (bitsOf code)).flatten ++
        (List.replicate 5 s.lines.data ++ s.chain.stage)).take s.chain.stage.length ∧
      u.chain.stage = (List.replicate 5 (code.getLsbD 0) ++ u.chain.cfg).take s.chain.stage.length ∧
      (s.config.specialCommit = .never → u.chain.disp = s.chain.disp) := by
  refine ⟨_, rfl, ?_⟩
  obtain ⟨u, hu, hclk, hle, hoe, hdata, hsb, hcfg, hmode, -, hstage, hdisp⟩ :=
    quietAll_configuration special code s h hsp
  rw [setBrightnessScript, quietAll_append, quietAll_append, quietAll_append, hu]
  obtain ⟨hl, hc, -, hb⟩ := quietAll_latch u
  rw [hle] at hc
  simp only [Bool.false_eq_true, if_false, Chain.commit, hmode] at hc
  generalize hv : (u.quietAll latchScript).quietAll [.restoreSb] = v at *
  have hvl : v.lines = { u.lines with le := false, oe := u.saveSb } := by
    rw [← hv]; simp [State.quiet, hl, hb, Lines.set]
  have hvc : v.chain = { u.chain with cfg := u.chain.stage } := by
    rw [← hv]; simp [State.quiet, hc, hmode, Chain.react]
  have hvf : v.config = s.config := by
    rw [← hv, quietAll_config, quietAll_config, hcfg]
  obtain ⟨h1, h2, -, h4⟩ := quietAll_switchMode_chain special .normal v (by rw [hvl]; exact hclk)
    (by rw [hvf]; exact hsp)
  obtain ⟨h5, -⟩ := quietAll_switchMode_disp special .normal v (by rw [hvl]; exact hclk)
  refine ⟨h4, by rw [h2, hvc]; exact hstage, ?_, ?_⟩
  · rw [h1, h2, hvl, hvc, hdata]
    simp [hstage]
    omega
  · intro hn
    rw [h5 (by rw [hvf]; exact hn), hvc]
    exact hdisp hn

end Sys2Proof.Machine
end

