-- ==== Sys2Proof/Laws/Decode.lean ====
section
/-! SUPPORT. The small facts of the byte form (R51, R53 to R57): bits and bytes, packing, and what a decoded
word consumes. -/

namespace Sys2Proof

open Machine (bitsOf byteOf weightOf)

/-! ### Bits and bytes -/

theorem weightOf_lt (bits : List Level) : weightOf bits < 2 ^ bits.length := by
  induction bits with
  | nil => simp [weightOf]
  | cons b bs ih =>
    have hb : b.toNat ≤ 1 := by cases b <;> simp
    simp only [weightOf, List.length_cons, Nat.pow_succ]
    omega

theorem weightOf_testBit (bits : List Level) (k : Nat) :
    (weightOf bits).testBit k = (bits[k]?).getD false := by
  induction bits generalizing k with
  | nil => simp [weightOf]
  | cons b bs ih =>
    cases k with
    | zero => cases b <;> simp [weightOf, Nat.testBit_zero]
    | succ k =>
      have hdiv : (b.toNat + 2 * weightOf bs) / 2 = weightOf bs := by cases b <;> (simp; try omega)
      simp only [weightOf, Nat.testBit_succ, hdiv, ih, List.getElem?_cons_succ]

/-- Bit k of the byte of at most eight bits is index k of them (R51). -/
theorem byteOf_getLsbD {bits : List Level} (h : bits.length ≤ 8) (k : Nat) :
    (byteOf bits).getLsbD k = (bits[k]?).getD false := by
  rw [byteOf, BitVec.getLsbD_ofNat, weightOf_testBit]
  by_cases hk : k < 8
  · simp [hk]
  · rw [List.getElem?_eq_none (by omega)]; simp

theorem bitsOf_getElem? (pat : Byte) (k : Nat) :
    (bitsOf pat)[k]? = if k < 8 then some (pat.getLsbD k) else none := by
  by_cases h : k < 8
  · interval_cases k <;> rfl
  · rw [if_neg h, List.getElem?_eq_none (by simp [bitsOf]; omega)]

/-- The bits of a packed byte: the sequence, and 0 for the unused high bits (R54). -/
theorem bitsOf_byteOf_of_le {bits : List Level} (h : bits.length ≤ 8) :
    bitsOf (byteOf bits) = bits ++ List.replicate (8 - bits.length) false := by
  apply List.ext_getElem?
  intro k
  rw [bitsOf_getElem?, byteOf_getLsbD h, List.getElem?_append, List.getElem?_replicate]
  by_cases h1 : k < bits.length
  · simp [h1, show k < 8 by omega]
  · by_cases h2 : k < 8
    · rw [List.getElem?_eq_none (by omega)]; simp [h1, h2]; omega
    · simp [h1, h2]; omega

/-- `byte_of` after `bits_of` (R51). -/
theorem byteOf_bitsOf (pat : Byte) : byteOf (bitsOf pat) = pat := by
  apply BitVec.eq_of_getLsbD_eq
  intro k hk
  rw [byteOf_getLsbD (by simp [bitsOf]), bitsOf_getElem?, if_pos hk]
  rfl

/-! ### Packing -/

@[simp] theorem packBits_length (n : Nat) (bits : List Level) : (packBits n bits).length = n := by
  induction n generalizing bits with
  | zero => rfl
  | succ n ih => simp [packBits, ih]

/-- The bits of the payload: the sequence, and 0 for the unused bits (R54). -/
theorem flatMap_packBits (n : Nat) {bits : List Level} (h : bits.length ≤ 8 * n) :
    (packBits n bits).flatMap bitsOf = bits ++ List.replicate (8 * n - bits.length) false := by
  induction n generalizing bits with
  | zero => simp at h; simp [packBits, h]
  | succ n ih =>
    rw [packBits, List.flatMap_cons, ih (by simp; omega), bitsOf_byteOf_of_le (by simp)]
    by_cases h8 : bits.length ≤ 8
    · rw [List.take_of_length_le h8, List.drop_eq_nil_of_le h8]
      simp only [List.length_nil, List.nil_append, List.append_assoc, List.replicate_append_replicate]
      congr 2; omega
    · have : (bits.take 8).length = 8 := by simp; omega
      rw [this, ← List.append_assoc, Nat.sub_self, List.replicate_zero, List.append_nil,
        List.take_append_drop, List.length_drop]
      congr 2; omega

/-- Element k of a sequence is bit k mod 8 of payload byte k div 8; the bits past its end are 0 (R54). -/
theorem packBits_getLsbD (n : Nat) {bits : List Level} (h : bits.length ≤ 8 * n) (k : Nat) :
    ((packBits n bits).getD (k / 8) 0x00#8).getLsbD (k % 8) = bits.getD k false := by
  induction n generalizing bits k with
  | zero => simp at h; simp [packBits, h]
  | succ n ih =>
    rw [packBits]
    by_cases hk : k < 8
    · rw [Nat.div_eq_of_lt hk, Nat.mod_eq_of_lt hk, List.getD_cons_zero, byteOf_getLsbD (by simp),
        List.getElem?_take, if_pos hk, List.getD_eq_getElem?_getD]
    · obtain ⟨m, rfl⟩ := Nat.exists_eq_add_of_le (not_lt.mp hk)
      have hm := ih (bits := bits.drop 8) (by simp; omega) m
      rw [Nat.add_mod_left, Nat.add_div_left m (by omega), List.getD_cons_succ, hm,
        List.getD_eq_getElem?_getD, List.getD_eq_getElem?_getD, List.getElem?_drop]

theorem flatMap_bitsOf_length (payload : List Byte) :
    (payload.flatMap bitsOf).length = 8 * payload.length := by
  induction payload with
  | nil => rfl
  | cons b bs ih => rw [List.flatMap_cons, List.length_append, ih]; simp [bitsOf]; omega

/-- Packing the bits of a payload gives the payload back (R54). -/
theorem packBits_flatMap (payload : List Byte) :
    packBits payload.length (payload.flatMap bitsOf) = payload := by
  induction payload with
  | nil => rfl
  | cons b bs ih =>
    rw [List.length_cons, packBits, List.flatMap_cons, List.take_append_of_le_length (by simp [bitsOf]),
      List.drop_append_of_le_length (by simp [bitsOf])]
    have h1 : (bitsOf b).take 8 = bitsOf b := rfl
    have h2 : (bitsOf b).drop 8 = [] := rfl
    rw [h1, h2, byteOf_bitsOf, List.nil_append, ih]

/-- What packing does not see: 0 bits after the sequence (R54). -/
theorem packBits_append_false (n m : Nat) (bits : List Level) :
    packBits n (bits ++ List.replicate m false) = packBits n bits := by
  induction n generalizing bits m with
  | zero => rfl
  | succ n ih =>
    have hbyte : byteOf ((bits ++ List.replicate m false).take 8) = byteOf (bits.take 8) := by
      apply BitVec.eq_of_getLsbD_eq
      intro k hk
      rw [byteOf_getLsbD (by simp), byteOf_getLsbD (by simp), List.getElem?_take, List.getElem?_take,
        if_pos hk, if_pos hk, List.getElem?_append]
      split
      · rfl
      · rw [List.getElem?_replicate, List.getElem?_eq_none (by omega)]; split <;> rfl
    rw [packBits, packBits, hbyte]
    congr 1
    by_cases h8 : 8 ≤ bits.length
    · rw [List.drop_append_of_le_length h8, ih]
    · rw [List.drop_append, List.drop_replicate, ih]

/-! ### What a word consumes -/

/-- Format B: the operand byte is there, or the word is one byte short (R53, R110). -/
theorem decodeArg_cons (arg : Byte) (rest : List Byte) (k : Byte → List Byte → Decoded) :
    decodeArg (arg :: rest) k = k arg rest := rfl

/-- Formats V and S with all their bytes (R53). -/
theorem decodeBlock_of_bytes (size : Nat → Nat) {n : Byte} {block : List Byte}
    (h : block.length = size n.toNat) (rest : List Byte) (k : Nat → List Byte → List Byte → Decoded) :
    decodeBlock size (n :: (block ++ rest)) k = k n.toNat block rest := by
  rw [decodeBlock, if_neg (by simp [← h]), ← h, List.take_left, List.drop_left]

/-- Formats V and S with too few bytes (R110). -/
theorem decodeBlock_of_short (size : Nat → Nat) {n : Byte} {tail : List Byte}
    (h : tail.length < size n.toNat) (k : Nat → List Byte → List Byte → Decoded) :
    decodeBlock size (n :: tail) k = .illegal (.truncated (size n.toNat - tail.length)) [] := by
  rw [decodeBlock, if_pos h]

theorem decodeSendbit_rest (arg : Byte) (rest : List Byte) : (decodeSendbit arg rest).rest = rest := by
  unfold decodeSendbit; split
  · rfl
  · split <;> rfl

theorem decodeSwitchmode_rest (arg : Byte) (rest : List Byte) :
    (decodeSwitchmode arg rest).rest = rest := by
  unfold decodeSwitchmode; split
  · rfl
  · split <;> rfl

theorem decodeSendserial_rest (n : Nat) (payload rest : List Byte) :
    (decodeSendserial n payload rest).rest = rest := by
  unfold decodeSendserial; split <;> rfl

theorem decodeArg_rest_length (tail : List Byte) {k : Byte → List Byte → Decoded}
    (h : ∀ arg rest, (k arg rest).rest = rest) : (decodeArg tail k).rest.length ≤ tail.length := by
  cases tail with
  | nil => simp [decodeArg, Decoded.rest]
  | cons arg rest => rw [decodeArg, h]; simp

theorem decodeBlock_rest_length (size : Nat → Nat) (tail : List Byte)
    {k : Nat → List Byte → List Byte → Decoded} (h : ∀ n block rest, (k n block rest).rest = rest) :
    (decodeBlock size tail k).rest.length ≤ tail.length := by
  cases tail with
  | nil => simp [decodeBlock, Decoded.rest]
  | cons n rest =>
    rw [decodeBlock]
    split
    · simp [Decoded.rest]
    · rw [h]; simp; omega

/-- A word consumes at least its opcode byte (R53, R57). -/
theorem decode_rest_length (b : Byte) (bs : List Byte) :
    (decode (b :: bs)).rest.length < (b :: bs).length := by
  rw [decode, List.length_cons, Nat.lt_succ_iff]
  split
  · exact decodeArg_rest_length bs (fun _ _ => rfl)
  · exact decodeArg_rest_length bs decodeSendbit_rest
  · exact decodeBlock_rest_length _ bs decodeSendserial_rest
  · exact Nat.le_refl _
  · exact decodeArg_rest_length bs decodeSwitchmode_rest
  · exact decodeArg_rest_length bs (fun _ _ => rfl)
  · exact decodeBlock_rest_length _ bs (fun _ _ _ => rfl)
  · exact Nat.le_refl _
  · exact Nat.le_refl _
  · exact Nat.le_refl _

end Sys2Proof
end

