-- ==== Sys2Proof/Laws/Sequence.lean ====
section
/-! SUPPORT. Commands one after the other: what they do to lines, trace and chain is what their scripts do joined
(R44, R61). -/

namespace Sys2Proof.Machine

/-- Two states with the same configuration, lines, save registers, trace and chain: all that the lines of
a rule read, but for the collaborator's answers. -/
def State.SameWire (s t : State) : Prop :=
  t.config = s.config ∧ t.lines = s.lines ∧ t.saveSm = s.saveSm ∧ t.saveSb = s.saveSb ∧
  t.trace = s.trace ∧ t.chain = s.chain

theorem sameWire_refl (s : State) : s.SameWire s := ⟨rfl, rfl, rfl, rfl, rfl, rfl⟩

theorem quiet_sameWire {s t : State} (h : s.SameWire t) (a : Act) : (s.quiet a).SameWire (t.quiet a) := by
  obtain ⟨h1, h2, h3, h4, h5, h6⟩ := h
  cases a <;> simp [State.SameWire, State.quiet, h1, h2, h3, h4, h5, h6]

theorem quietAll_sameWire {s t : State} (h : s.SameWire t) (as : List Act) :
    (s.quietAll as).SameWire (t.quietAll as) := by
  induction as generalizing s t with
  | nil => exact h
  | cons a as ih => exact ih (quiet_sameWire h a)

theorem events_sameWire {s t : State} (h : s.SameWire t) (a : Act) : a.events t = a.events s := by
  obtain ⟨-, -, h3, h4, -, -⟩ := h
  cases a <;> simp [Act.events, h3, h4]

theorem eventsOf_sameWire {s t : State} (h : s.SameWire t) (as : List Act) :
    eventsOf as t = eventsOf as s := by
  induction as generalizing s t with
  | nil => rfl
  | cons a as ih => rw [eventsOf, eventsOf, events_sameWire h, ih (quiet_sameWire h a)]

/-- The answers that come up after the lines of a rule. -/
theorem quietAll_ioAnswerAt (k : Nat) (as : List Act) (s : State) :
    (s.quietAll as).ioAnswerAt k = s.ioAnswerAt (writeCount as + k) := by
  induction as generalizing s with
  | nil => simp [writeCount]
  | cons a as ih =>
    rw [quietAll_cons, ih, quiet_ioAnswerAt]
    congr 1
    simp only [writeCount, List.countP_cons]
    cases a.writes with
    | false => simp
    | true => simp; omega

/-- Commands that take the guard, none of whose writes fails, one after the other. -/
theorem execAll_of_runs (is : List Instr) (hi : ∀ i ∈ is, needsGuard i = true) {s : State}
    (h : s.RunsThrough (eventsOf (is.flatMap (commandScript s.config)) s.guarded)) :
    ∃ u, execAll is s = .next u ∧
      (s.guarded.quietAll (is.flatMap (commandScript s.config))).SameWire u ∧
      u.guard = false ∧ u.fatal = false := by
  induction is generalizing s with
  | nil => exact ⟨s, rfl, sameWire_refl _, h.1, h.2.1⟩
  | cons i is ih =>
    obtain ⟨hg, hf, hok⟩ := h
    simp only [List.flatMap_cons, eventsOf_append, quietAll_append] at hok ⊢
    have hrun : s.RunsThrough (eventsOf (commandScript s.config i) s.guarded) :=
      ⟨hg, hf, fun k hk => hok k (by rw [writesIn_append]; omega)⟩
    have hexec := exec_underGuard (hi i (List.mem_cons_self ..)) s
    rw [underGuard_of_runs hrun] at hexec
    generalize ht : State.advance _ = t at hexec
    have hcfg : t.config = s.config := by rw [← ht]; simp
    have hwire : (s.guarded.quietAll (commandScript s.config i)).SameWire t.guarded := by
      rw [← ht]; simp [State.SameWire]
    have htg : t.guard = false := by rw [← ht]; simp
    have htf : t.fatal = false := by rw [← ht]; simpa using hf
    obtain ⟨u, hu, hw, hug, huf⟩ := ih (fun j hj => hi j (List.mem_cons_of_mem _ hj)) (s := t)
      ⟨htg, htf, fun k hk => by
        rw [hcfg, eventsOf_sameWire hwire] at hk
        have hio : t.ioAnswerAt k = (s.guarded.quietAll (commandScript s.config i)).ioAnswerAt k :=
          ioAnswerAt_congr (by rw [← ht]; simp) (by rw [← ht]; simp) k
        rw [hio, quietAll_ioAnswerAt, guarded_ioAnswerAt]
        exact hok _ (by rw [writesIn_append, ← writesIn_eventsOf _ s.guarded]; omega)⟩
    refine ⟨u, ?_, ?_, hug, huf⟩
    · rw [execAll, hexec]; exact hu
    · have h1 := quietAll_sameWire hwire (is.flatMap (commandScript s.config))
      rw [hcfg] at hw
      obtain ⟨a1, a2, a3, a4, a5, a6⟩ := h1
      obtain ⟨b1, b2, b3, b4, b5, b6⟩ := hw
      exact ⟨b1.trans a1, b2.trans a2, b3.trans a3, b4.trans a4, b5.trans a5, b6.trans a6⟩

/-- One command that takes the guard, none of whose writes fails. -/
theorem exec_of_runs {i : Instr} (hi : needsGuard i = true) {s : State}
    (h : s.RunsThrough (commandEvents s.config s.lines.oe i)) :
    ∃ u, exec i s = .next u ∧ (s.guarded.quietAll (commandScript s.config i)).SameWire u ∧
      s.Completed u (commandEvents s.config s.lines.oe i) := by
  rw [← eventsOf_command] at h ⊢
  refine ⟨_, exec_underGuard hi s, ?_, underGuard_completed h⟩
  rw [underGuard_of_runs h]
  simp [State.SameWire]

end Sys2Proof.Machine
end

