-- ==== Sys2Proof/Laws/Patterns.lean ====
section
/-! SUPPORT. The small facts of patterns and of event lists (R50, R51, R70, R82, R101). -/

namespace Sys2Proof.Machine

@[simp] theorem bitsOf_length (pat : Byte) : (bitsOf pat).length = 8 := rfl

theorem encodeChar_of_glyph {t : CharacterTable} {ch : Byte} {g : Glyph} (h : glyphOf ch = some g) :
    encodeChar t ch = outputLetters.map (fun l => decide (l ∈ lettersOf t g)) := by
  simp [encodeChar, h]

theorem encodeChar_of_unmapped (t : CharacterTable) {ch : Byte} (h : isMapped ch = false) :
    encodeChar t ch = [] := by
  unfold encodeChar; unfold isMapped at h; cases hg : glyphOf ch <;> simp_all

/-- A pattern has eight elements or none (R50). -/
theorem encodeChar_length (t : CharacterTable) (ch : Byte) :
    (encodeChar t ch).length = if isMapped ch then 8 else 0 := by
  unfold encodeChar isMapped; cases glyphOf ch <;> simp [outputLetters]

/-- Unmapped characters contribute nothing (R74, R100). -/
theorem textPatterns_mappedChars (t : CharacterTable) (text : List Byte) :
    textPatterns t (mappedChars text) = textPatterns t text := by
  induction text with
  | nil => rfl
  | cons ch chs ih =>
    cases h : isMapped ch <;>
      simp_all [mappedChars, textPatterns_cons, encodeChar_of_unmapped]

theorem textPatterns_length (t : CharacterTable) (text : List Byte) :
    (textPatterns t text).length = 8 * (mappedChars text).length := by
  induction text with
  | nil => rfl
  | cons ch chs ih =>
    rw [textPatterns_cons, List.length_append, ih, encodeChar_length]
    cases h : isMapped ch <;> simp [mappedChars, h]; omega

theorem replay_sendBit (ls : Lines) (b : Level) :
    replay ls (sendBitEvents b) = { ls with data := b, clk := false } := rfl

theorem serialEvents_length (bits : List Level) : (serialEvents bits).length = 4 * bits.length := by
  induction bits with
  | nil => rfl
  | cons b bs ih => rw [serialEvents_cons, List.length_append, ih]; simp [sendBitEvents, clockEvents]; omega

end Sys2Proof.Machine
end

