-- ==== Sys2Proof/Laws/Events.lean ====
section
/-! SUPPORT. What an observer reads off joined event lists and off a SENDSERIAL of any length (R8, R81, R82,
R91): levels, counts, transitions. -/

namespace Sys2Proof.Machine

theorem levelsOn_append (l : Line) (xs ys : List Event) :
    levelsOn l (xs ++ ys) = levelsOn l xs ++ levelsOn l ys := by simp [levelsOn]

/-- The levels SENDSERIAL writes to DATA are its operand's, last index first (R82). -/
theorem levelsOn_serialEvents (bits : List Level) : levelsOn .data (serialEvents bits) = bits.reverse := by
  induction bits with
  | nil => rfl
  | cons b bs ih => rw [serialEvents_cons, levelsOn_append, ih, List.reverse_cons]; rfl

/-- The lines after SENDSERIAL (R82): DATA keeps the first element, CLK is 0 if anything was sent. -/
theorem replay_serialEvents (ls : Lines) (bits : List Level) :
    replay ls (serialEvents bits) =
      { ls with
        data := bits.headD ls.data
        clk := if bits = [] then ls.clk else false } := by
  have hkeep (as : List Level) :
      (replay ls (serialEvents as)).le = ls.le ∧ (replay ls (serialEvents as)).oe = ls.oe := by
    induction as with
    | nil => exact ⟨rfl, rfl⟩
    | cons b bs ih => rw [serialEvents_cons, replay_append, replay_sendBit]; exact ih
  cases bits with
  | nil => rfl
  | cons b bs => rw [serialEvents_cons, replay_append, replay_sendBit]; simp [hkeep bs]

/-- Every element of a SENDSERIAL issues one clock pulse (R91). -/
theorem count_serialEvents {e : Event} (he : ∀ b, e ≠ .write .data b) (bits : List Level) :
    (serialEvents bits).count e = bits.length * clockEvents.count e := by
  induction bits with
  | nil => simp
  | cons b bs ih =>
    rw [serialEvents_cons, List.count_append, ih, sendBitEvents,
      List.count_cons_of_ne (Ne.symm (he b)), List.length_cons]
    ring

/-- The least durations of joined events add up (R132). -/
theorem leastDuration_append (c : Config) (xs ys : List Event) :
    leastDuration c (xs ++ ys) = leastDuration c xs + leastDuration c ys := by
  simp [leastDuration]
  ring

/-- DATA is stable over joined events if it is over each, from the CLK level between them (R81). -/
theorem dataStable_append (ls : Lines) (xs ys : List Event) :
    dataStable ls.clk (xs ++ ys) = (dataStable ls.clk xs && dataStable (replay ls xs).clk ys) := by
  induction xs generalizing ls with
  | nil => simp [replay, dataStable]
  | cons x xs ih =>
    cases x with
    | hold w => exact ih ls
    | write k v =>
      have h := ih (ls.set k v)
      cases k with
      | clk => exact h
      | data =>
        simp only [List.cons_append, dataStable, replay]
        exact (congrArg (fun b => !ls.clk && b) h).trans (Bool.and_assoc ..).symm
      | le => exact h
      | oe => exact h

/-- Dropping redundant writes and zero-width holds leaves the levels (R8). -/
theorem replay_waveform (c : Config) (ls : Lines) (evs : List Event) :
    replay ls (waveform c ls evs) = replay ls evs := by
  induction evs generalizing ls with
  | nil => rfl
  | cons e es ih =>
    cases e with
    | hold w => simp only [waveform]; split <;> simp [replay, ih]
    | write l v =>
      simp only [waveform]
      split
      · rename_i h
        have hset : ls.set l v = ls := by subst h; cases l <;> rfl
        simp [replay, hset, ih]
      · simp [replay, ih]

/-- The waveform of joined events (R8), from the lines between them. -/
theorem waveform_append (c : Config) (ls : Lines) (xs ys : List Event) :
    waveform c ls (xs ++ ys) = waveform c ls xs ++ waveform c (replay ls xs) ys := by
  induction xs generalizing ls with
  | nil => rfl
  | cons x xs ih =>
    cases x with
    | hold w => simp only [List.cons_append, waveform, replay, ih]; split <;> rfl
    | write l v =>
      simp only [List.cons_append, waveform, replay]
      split
      · rename_i h
        have hset : ls.set l v = ls := by subst h; cases l <;> rfl
        rw [ih, hset]
      · rw [ih, List.cons_append]

/-- The transitions of joined events (R91), from the lines between them. -/
theorem rises_append (l : Line) (ls : Lines) (xs ys : List Event) :
    rises l (ls.get l) (xs ++ ys) = rises l (ls.get l) xs + rises l ((replay ls xs).get l) ys := by
  induction xs generalizing ls with
  | nil => simp [rises, replay]
  | cons x xs ih =>
    cases x with
    | hold w => exact ih ls
    | write k v =>
      have h := ih (ls.set k v)
      simp only [List.cons_append, rises, replay]
      split
      · rename_i hk
        subst hk
        have hg : (ls.set k v).get k = v := by cases k <;> rfl
        rw [hg] at h
        omega
      · rename_i hk
        have hg : (ls.set k v).get l = ls.get l := by
          cases k <;> cases l <;> first | rfl | exact absurd rfl hk
        rwa [hg] at h

end Sys2Proof.Machine
end

