-- ==== Sys2Proof/Laws/PerInstr.lean ====
section
/-! SUPPORT. What holds of every command as syntax, one lemma per constructor: the shape of its byte form
(R53, R55, R56). -/

namespace Sys2Proof.Laws.EncodingShape

/-- The byte form of a well-formed command starts with its opcode, which is one of R56's nine, and has the
length of its format (R55); it is at most 257 bytes. -/
def Statement (i : Instr) : Prop :=
  i.wf = true →
    (encode i).head? = some (opcodeOf i) ∧ (opcodeOf i).toNat ∈ [1, 2, 3, 4, 5, 6, 7, 8, 9] ∧
    (encode i).length = 1 + (operandBytes i).length ∧ (encode i).length ≤ 257

theorem encode (ch : Byte) : Statement (.encode ch) := fun _ =>
  ⟨rfl, by simp [opcodeOf], rfl, by simp [Sys2Proof.encode, operandBytes]⟩

theorem sendbit (bit : Level) : Statement (.sendbit bit) := fun _ =>
  ⟨rfl, by simp [opcodeOf], rfl, by simp [Sys2Proof.encode, operandBytes]⟩

theorem sendserial (bits : List Level) : Statement (.sendserial bits) := by
  intro h
  refine ⟨rfl, by simp [opcodeOf], by rw [Sys2Proof.encode, List.length_cons, Nat.add_comm], ?_⟩
  have hn : bits.length ≤ 255 := of_decide_eq_true h
  simp [Sys2Proof.encode, operandBytes, payloadSize]
  omega

theorem latch : Statement .latch := fun _ =>
  ⟨rfl, by simp [opcodeOf], rfl, by simp [Sys2Proof.encode, operandBytes]⟩

theorem switchmode (mode : ChainMode) : Statement (.switchmode mode) := fun _ =>
  ⟨rfl, by simp [opcodeOf], rfl, by simp [Sys2Proof.encode, operandBytes]⟩

theorem setbrightness (code : Byte) : Statement (.setbrightness code) := fun _ =>
  ⟨rfl, by simp [opcodeOf], rfl, by simp [Sys2Proof.encode, operandBytes]⟩

theorem render (text : List Byte) : Statement (.render text) := by
  intro h
  refine ⟨rfl, by simp [opcodeOf], by rw [Sys2Proof.encode, List.length_cons, Nat.add_comm], ?_⟩
  have hn : text.length ≤ 255 := of_decide_eq_true h
  simp [Sys2Proof.encode, operandBytes]
  omega

theorem enable : Statement .enable := fun _ =>
  ⟨rfl, by simp [opcodeOf], rfl, by simp [Sys2Proof.encode, operandBytes]⟩

theorem disable : Statement .disable := fun _ =>
  ⟨rfl, by simp [opcodeOf], rfl, by simp [Sys2Proof.encode, operandBytes]⟩

end Sys2Proof.Laws.EncodingShape
end

