-- ==== Sys2Proof/Laws/Step.lean ====
section
/-! SUPPORT. Everything a step can do, said once: nothing, one command of one requester, or one refused word
(R9, R42, R113, R115). -/

namespace Sys2Proof.Machine

theorem Requester.eq_of_ne_of_ne {p q r : Requester} (hp : p ≠ r) (hq : q ≠ r) : p = q := by
  cases p <;> cases q <;> cases r <;> simp_all

/-! ### Choosing the requester -/

/-- A served requester has a word at its pointer. -/
theorem pending_of_ready {s : State} {r : Requester} (h : s.ready r = true) : s.pending r ≠ [] := by
  intro hp; simp [State.ready, hp] at h

/-- A requester whose word decodes to a command is served when the command starts (R115). -/
theorem ready_of_ok {s : State} {r : Requester} {i : Instr} {rest : List Byte}
    (h : decode (s.pending r) = .ok i rest) : s.ready r = s.starts i := by
  cases hp : s.pending r with
  | nil => simp [hp, decode] at h
  | cons b bs => rw [hp] at h; simp [State.ready, hp, h]

/-- A requester whose word is refused is served at once (R113, R115). -/
theorem ready_of_illegal {s : State} {r : Requester} {reason : Illegal} {rest : List Byte}
    (hp : s.pending r ≠ []) (h : decode (s.pending r) = .illegal reason rest) : s.ready r = true := by
  cases hc : s.pending r with
  | nil => exact absurd hc hp
  | cons b bs => rw [hc] at h; simp [State.ready, hc, h]

/-- The one requester that can be served is. -/
theorem fetch_of_only {s : State} {r : Requester} (h : s.ready r = true)
    (ho : ∀ q, q ≠ r → s.ready q = false) : s.fetch = s.serve r := by
  cases r with
  | a => simp [State.fetch, h, ho .b (by simp)]
  | b => simp [State.fetch, h, ho .a (by simp)]

/-- The choices used up by a fetch: one when both requesters can be served, else none. -/
def State.turnsAfter (s : State) : Draws Requester :=
  if s.ready .a = true ∧ s.ready .b = true then s.turns.next else s.turns

/-- What a fetch can be. -/
theorem fetch_cases (s : State) :
    (s.ready .a = false ∧ s.ready .b = false ∧ s.fetch = .nothing) ∨
    ∃ r, s.ready r = true ∧ s.fetch = { s with turns := s.turnsAfter }.serve r := by
  cases ha : s.ready .a <;> cases hb : s.ready .b
  · exact .inl ⟨rfl, rfl, by simp [State.fetch, ha, hb]⟩
  · exact .inr ⟨.b, hb, by simp [State.fetch, State.turnsAfter, ha, hb]⟩
  · exact .inr ⟨.a, ha, by simp [State.fetch, State.turnsAfter, ha, hb]⟩
  · refine .inr ⟨s.turns.peek Config.freeTurn, ?_, by simp [State.fetch, State.turnsAfter, ha, hb]⟩
    cases s.turns.peek Config.freeTurn <;> assumption

/-! ### The step -/

/-- The state in which a served requester's word is executed. -/
abbrev State.servedBy (s : State) (r : Requester) : State :=
  { s with turns := s.turnsAfter, issuer := r }

/-- Everything a step can do. -/
theorem step_cases {s t : State} (h : step s = .next t) :
    (s.ready .a = false ∧ s.ready .b = false ∧ t = s) ∨
    ∃ r, s.ready r = true ∧
      ((∃ i rest, decode (s.pending r) = .ok i rest ∧ s.starts i = true ∧
          exec i (s.servedBy r) = .next t) ∨
        ∃ reason rest, decode (s.pending r) = .illegal reason rest ∧
          t = (s.servedBy r).answer (.invalid reason)) := by
  rcases fetch_cases s with ⟨ha, hb, hf⟩ | ⟨r, hr, hf⟩
  · exact .inl ⟨ha, hb, by simpa [step, hf] using h.symm⟩
  · refine .inr ⟨r, hr, ?_⟩
    have hp : { s with turns := s.turnsAfter }.pending r = s.pending r := by cases r <;> rfl
    simp only [step, hf, State.serve, hp] at h
    cases hd : decode (s.pending r) with
    | ok i rest =>
      rw [hd] at h
      exact .inl ⟨i, rest, rfl, by rw [← ready_of_ok hd, hr], h⟩
    | illegal reason rest =>
      rw [hd] at h
      exact .inr ⟨reason, rest, rfl, by simpa using h.symm⟩

/-- Every command answers a next state. -/
theorem exec_answers (i : Instr) (s : State) : ∃ t, exec i s = .next t := by
  cases i <;> exact ⟨_, rfl⟩

/-- A property of states that no command and no refused word ends is kept by the step. -/
theorem step_induct {P : State → Prop} (hserve : ∀ s r, P s → P (s.servedBy r))
    (hanswer : ∀ s a, P s → P (s.answer a))
    (hexec : ∀ i s t, P s → exec i s = .next t → P t) {s t : State} (hs : P s)
    (h : step s = .next t) : P t := by
  rcases step_cases h with ⟨-, -, rfl⟩ | ⟨r, -, ⟨i, rest, -, -, he⟩ | ⟨reason, rest, -, rfl⟩⟩
  · exact hs
  · exact hexec i _ t (hserve s r hs) he
  · exact hanswer _ _ (hserve s r hs)

/-! ### Command pointers -/

@[simp] theorem bytesFrom_nil (n : Nat) : bytesFrom n [] = [] := by
  induction n with
  | zero => rfl
  | succ n ih => exact ih

/-- One command further on a list are the bytes after the word there (R20). -/
theorem bytesFrom_succ (n : Nat) {bytes : List Byte} (h : bytesFrom n bytes ≠ []) :
    bytesFrom (n + 1) bytes = (decode (bytesFrom n bytes)).rest := by
  induction n generalizing bytes with
  | zero =>
    cases bytes with
    | nil => exact absurd rfl h
    | cons b bs => rfl
  | succ n ih =>
    cases bytes with
    | nil => simp at h
    | cons b bs => exact ih h

/-- A requester with a word at its pointer has not reached the end of its list (R18, R20). -/
theorem lt_commandCount {n fuel : Nat} {bytes : List Byte} (hf : bytes.length ≤ fuel)
    (h : bytesFrom n bytes ≠ []) : n < commandCount fuel bytes := by
  induction n generalizing fuel bytes with
  | zero =>
    cases fuel with
    | zero => simp at hf; exact absurd hf h
    | succ f => cases bytes with
      | nil => exact absurd rfl h
      | cons b bs => simp [commandCount]
  | succ n ih =>
    cases bytes with
    | nil => simp at h
    | cons b bs =>
      have hlt := decode_rest_length b bs
      cases fuel with
      | zero => simp at hf
      | succ f =>
        simp only [commandCount]
        exact Nat.succ_lt_succ (ih (by simp at hf hlt; omega) h)

end Sys2Proof.Machine
end

