-- ==== Sys2Proof/Tests/Slice0.lean ====
section
/-! SUPPORT. Small tests whose expected results come from the spec's rules and vectors (95_test_vectors), and,
for each obligation with hypotheses, a concrete state that meets them. -/

namespace Sys2Proof.Tests

open Sys2Proof.Machine

/-! ### Well-formedness: the byte form caps a length at 255 (R53) -/

theorem test_wf_bits_255 : (Instr.sendserial (List.replicate 255 true)).wf = true := by decide +kernel
theorem test_wf_refuses_bits_256 : (Instr.sendserial (List.replicate 256 true)).wf = false := by decide +kernel
theorem test_wf_text_255 : (Instr.render (List.replicate 255 0x31#8)).wf = true := by decide +kernel
theorem test_wf_refuses_text_256 : (Instr.render (List.replicate 256 0x31#8)).wf = false := by decide +kernel
theorem test_wf_others : (Instr.setbrightness 0xFF#8).wf = true ∧ Instr.latch.wf = true := by decide

/-! ### Decoding: one word per constructor, written out from R53, R54 and R56 (V3, V7, V10) -/

theorem test_decode_encode : decode [0b00000001#8, 0b00110001#8] = .ok (.encode 0x31#8) [] := by decide
theorem test_decode_sendbit : decode [0b00000010#8, 0b00000001#8] = .ok (.sendbit true) [] := by decide
theorem test_decode_sendserial :
    decode [0x03#8, 0x0B#8, 0x0D#8, 0x07#8] =
      .ok (.sendserial [true, false, true, true, false, false, false, false, true, true, true]) [] := by
  decide
theorem test_decode_latch : decode [0b00000100#8] = .ok .latch [] := by decide
theorem test_decode_switchmode :
    decode [0b00000101#8, 0x00#8] = .ok (.switchmode .normal) [] ∧
    decode [0b00000101#8, 0x01#8] = .ok (.switchmode .special) [] := by decide
theorem test_decode_setbrightness : decode [0b00000110#8, 0xFF#8] = .ok (.setbrightness 0xFF#8) [] := by
  decide
theorem test_decode_render :
    decode [0x07#8, 0x02#8, 0x31#8, 0x2D#8, 0x08#8] = .ok (.render [0x31#8, 0x2D#8]) [0x08#8] := by decide
theorem test_decode_enable : decode [0b00001000#8, 0x09#8] = .ok .enable [0x09#8] := by decide
theorem test_decode_disable : decode [0b00001001#8] = .ok .disable [] := by decide
theorem test_decode_empty_operands :
    decode [0x03#8, 0x00#8] = .ok (.sendserial []) [] ∧ decode [0x07#8, 0x00#8] = .ok (.render []) [] := by
  decide

/-- The refused rows of V10. -/
theorem test_decode_refusals :
    decode [0x02#8, 0x02#8] = .illegal (.badOperand 0x02#8) [] ∧
    decode [0x02#8] = .illegal (.truncated 1) [] ∧
    decode [0x05#8, 0x02#8] = .illegal (.badOperand 0x02#8) [] ∧
    decode [0x03#8, 0x03#8, 0x0D#8] = .illegal (.badPadding 0x0D#8) [] ∧
    decode [0x03#8, 0x09#8, 0xFF#8] = .illegal (.truncated 1) [] ∧
    decode [0x07#8, 0x02#8, 0x31#8] = .illegal (.truncated 1) [] ∧
    decode [0x00#8] = .illegal (.reservedOpcode 0x00#8) [] ∧
    decode [0x0A#8, 0x04#8] = .illegal (.reservedOpcode 0x0A#8) [0x04#8] ∧
    decode [0xFF#8] = .illegal (.reservedOpcode 0xFF#8) [] := by decide

/-- The bytes of the syntax table of R60. -/
theorem test_encode_bytes :
    encode (.sendserial [true, false, true, true, false, false, false, false]) = [0x03#8, 0x08#8, 0x0D#8] ∧
    encode (.render [0x31#8, 0x2D#8]) = [0x07#8, 0x02#8, 0x31#8, 0x2D#8] ∧
    encode (.switchmode .special) = [0x05#8, 0x01#8] := by decide

/-- The rows of the opcode table, bit 0 the least significant bit of the first byte. -/
theorem test_table_words :
    decodeTableWord 8 0x01 = some (.encode 0x00#8) ∧ decodeTableWord 8 0x02 = some (.sendbit false) ∧
    decodeTableWord 8 0x03 = some (.sendserial []) ∧ decodeTableWord 8 0x04 = some .latch ∧
    decodeTableWord 8 0x05 = some (.switchmode .normal) ∧
    decodeTableWord 8 0x06 = some (.setbrightness 0x00#8) ∧ decodeTableWord 8 0x07 = some (.render []) ∧
    decodeTableWord 8 0x08 = some .enable ∧ decodeTableWord 8 0x09 = some .disable ∧
    decodeTableWord 16 0x0102 = some (.sendbit true) ∧ decodeTableWord 8 0x0A = none := by decide +kernel

/-! ### Small states -/

/-- A chain of one chip with known bits, otherwise as after reset. -/
def small : State :=
  { State.resetWith { defaultConfig with nPositions := 1 } with
    chain :=
      { stage := [false, true, true, false, false, true, false, true]
        disp := List.replicate 8 true
        cfg := List.replicate 8 false
        mode := .normal
        samples := [] } }

/-- The lines at some levels (CLK, DATA, LE, OE). -/
def State.withLines (s : State) (clk data le oe : Level) : State :=
  { s with lines := { clk := clk, data := data, le := le, oe := oe } }

/-- The collaborator performs `n` writes and fails the next one, keeping the line's old level. -/
def failing (n : Nat) (s : State) : State :=
  { s with
    config := { s.config with ioCanFail := true }
    io := { known := List.replicate n .ok ++ [.failKeepsOld], used := 0 } }

/-- A's command list, from its start. -/
def commandsOfA (bytes : List Byte) (s : State) : State :=
  { s with portA := { commands := bytes, cp := 0, answers := [] } }

/-- What a next state shows. -/
def shows {α : Type} (f : State → α) : Host.Outcome State Fault Refusal → Option α
  | .next t => some (f t)
  | .fault _ => none
  | .refused _ => none

/-! ### One step of each command -/

/-- V1: `ENCODE '8'` gives (1, 0xF7), `ENCODE '.'` gives (0, 0x00). -/
theorem test_encode_answers :
    shows (fun t => t.portA.answers) (exec (.encode 0x38#8) State.reset) = some [.pattern 0x01#8 0xF7#8] ∧
    shows (fun t => t.portA.answers) (exec (.encode 0x2E#8) State.reset) =
      some [.pattern 0x00#8 0x00#8] := by decide

/-- V13: ENCODE still answers when FATAL = 1. -/
theorem test_encode_under_fatal :
    shows (fun t => (t.portA.answers, t.portA.cp, t.fatal))
      (exec (.encode 0x31#8) { small with fatal := true, guard := true }) =
      some ([.pattern 0x01#8 0x05#8], 1, true) := by decide

/-- V2, first row. -/
theorem test_sendbit :
    shows (fun t => (t.trace, t.lines, t.chain.stage)) (exec (.sendbit true) small) =
      some ([.write .data true, .write .clk true, .hold .clkw, .write .clk false],
        { clk := false, data := true, le := false, oe := true },
        [true, false, true, true, false, false, true, false]) := by decide

/-- V13: the third write of SENDBIT fails; the chain has shifted the 1 in. -/
theorem test_sendbit_fails :
    shows (fun t => (t.trace, t.fatal, t.guard, t.lines.data, t.chain.stage))
      (exec (.sendbit true) (failing 2 small)) =
      some ([.write .data true, .write .clk true, .hold .clkw], true, true, true,
        [true, false, true, true, false, false, true, false]) := by decide

/-- V3: `SENDSERIAL 10110000` ends in the stages of one chip in its own order; DATA keeps bits[0]. -/
theorem test_sendserial_stage :
    shows (fun t => (levelsOn .data t.trace, t.chain.stage, t.lines.data))
      (exec (.sendserial [true, false, true, true, false, false, false, false]) small) =
      some ([false, false, false, false, true, true, false, true],
        [true, false, true, true, false, false, false, false], true) := by decide

/-- V3: the empty sequence writes nothing and completes. -/
theorem test_sendserial_empty :
    shows (fun t => (t.trace, t.portA.cp)) (exec (.sendserial []) small) = some ([], 1) := by decide

/-- V4. -/
theorem test_latch :
    shows (fun t => (t.trace, t.chain.disp, t.chain.cfg)) (exec .latch small) =
      some ([.write .le true, .hold .lew, .write .le false], small.chain.stage, small.chain.cfg) := by decide

/-- R35: in Special mode the configuration register takes the stages. -/
theorem test_latch_special :
    shows (fun t => (t.chain.disp, t.chain.cfg))
      (exec .latch { small with chain := { small.chain with mode := .special } }) =
      some (small.chain.disp, small.chain.stage) := by decide

/-- V5, first row: the 22 events, the lines as they were, and the receiver's mode. -/
theorem test_switchmode_special :
    shows (fun t => (t.trace, t.lines, t.chain.mode))
      (exec (.switchmode .special) (State.withLines small false true false false)) =
      some ([.write .le false,
          .write .oe true, .write .clk true, .hold .clkw, .write .clk false,
          .write .oe false, .write .clk true, .hold .clkw, .write .clk false,
          .write .oe true, .write .clk true, .hold .clkw, .write .clk false,
          .write .le true, .write .clk true, .hold .clkw, .write .clk false,
          .write .le false, .write .clk true, .hold .clkw, .write .clk false,
          .write .oe false],
        { clk := false, data := true, le := false, oe := false }, .special) := by decide

/-- V5: back to Normal; R37: five levels of DATA have been shifted in. -/
theorem test_switchmode_normal :
    shows (fun t => (t.chain.mode, t.chain.stage, t.lines.oe))
      (exec (.switchmode .normal)
        { State.withLines small false true false true with
          chain := { small.chain with mode := .special } }) =
      some (.normal, [true, true, true, true, true, false, true, true], true) := by decide

/-- V6: counts, the configuration register of one chip, and the lines at the end. -/
theorem test_setbrightness :
    shows (fun t => (t.trace.length, t.trace.count (.write .clk true), t.lines))
      (exec (.setbrightness 0x5A#8) (State.withLines small false true false false)) =
      some (336, 82, { clk := false, data := false, le := false, oe := false }) := by decide +kernel

/-- V6: CFG holds 0x5A, the mode is Normal, DISP is unchanged; the stages begin with the five 0s of V6. -/
theorem test_setbrightness_chain :
    shows (fun t => (t.chain.cfg.map Bool.toNat, t.chain.mode, t.chain.disp, t.chain.stage.take 5))
      (exec (.setbrightness 0x5A#8) (State.withLines small false true false false)) =
      some ([0, 1, 0, 1, 1, 0, 1, 0], .normal, small.chain.disp, List.replicate 5 false) := by decide +kernel

/-- V7: `RENDER "1."` sends 0x05 most significant bit first and skips the point. -/
theorem test_render :
    shows (fun t => (levelsOn .data t.trace, t.trace.length, t.chain.disp.map Bool.toNat))
      (exec (.render [0x31#8, 0x2E#8]) small) =
      some ([false, false, false, false, false, true, false, true], 35,
        [1, 0, 1, 0, 0, 0, 0, 0]) := by decide

/-- V7: `RENDER "."` still pulses the latch. -/
theorem test_render_unmapped :
    shows (fun t => t.trace) (exec (.render [0x2E#8]) small) =
      some [.write .le true, .hold .lew, .write .le false] := by decide

/-- V9. -/
theorem test_enable :
    shows (fun t => (t.trace, t.lines.oe, t.chain)) (exec .enable small) =
      some ([.write .oe false], false, small.chain) := by decide

/-- V9: a redundant write is issued and recorded. -/
theorem test_disable :
    shows (fun t => (t.trace, t.lines.oe, t.chain)) (exec .disable small) =
      some ([.write .oe true], true, small.chain) := by decide

/-! ### The step -/

/-- The first instruction after reset is the one placed where the step fetches. -/
theorem test_fetch_latch :
    shows (fun t => (t.trace, t.portA.cp)) (step (State.reset.withFetchWord 8 0x04)) =
      some ([.write .le true, .hold .lew, .write .le false], 1) := by decide +kernel

/-- P5: the first word is refused and its `CP` moves. -/
theorem test_step_refuses :
    shows (fun t => (t.portA.answers, t.portA.cp, t.trace))
      (step (commandsOfA [0x02#8, 0x02#8, 0x0A#8, 0x04#8] small)) =
      some ([.invalid (.badOperand 0x02#8)], 1, []) := by decide

/-- P5: from `CP` = 2 the byte offset is the sum of the lengths before it, and the LATCH runs. -/
theorem test_step_offset :
    shows (fun t => (t.portA.cp, t.trace))
      (step { small with portA := { commands := [0x02#8, 0x02#8, 0x0A#8, 0x04#8], cp := 2, answers := [] } }) =
      some (3, [.write .le true, .hold .lew, .write .le false]) := by decide

/-- R126: both lists at their end, GUARD and FATAL 0. -/
theorem test_final : small.Final ∧ ¬ (commandsOfA [0x04#8] small).Final := by decide

/-- R5: the default chain has nine chips, R31: 72 stages. -/
theorem test_default_chain :
    (State.reset.config.nPositions : Nat) = 9 ∧ State.reset.chain.stage.length = 72 := ⟨rfl, rfl⟩

/-! ### What the premises of the obligations need -/

theorem reset_runs (evs : List Event) : State.reset.RunsThrough evs := ⟨rfl, rfl, fun _ _ => rfl⟩

theorem small_runs (evs : List Event) : small.RunsThrough evs := ⟨rfl, rfl, fun _ _ => rfl⟩

theorem lines_run (clk data le oe : Level) (evs : List Event) :
    (State.withLines small clk data le oe).RunsThrough evs := ⟨rfl, rfl, fun _ _ => rfl⟩

theorem failing_answer (n : Nat) (s : State) :
    (∀ k < n, (failing n s).ioAnswerAt k = .ok) ∧ (failing n s).ioAnswerAt n = .failKeepsOld := by
  induction n generalizing s with
  | zero => exact ⟨by simp, rfl⟩
  | succ n ih =>
    have hnext (k : Nat) : (failing (n + 1) s).ioAnswerAt (k + 1) = (failing n s).ioAnswerAt k := rfl
    refine ⟨fun k hk => ?_, by rw [hnext]; exact (ih s).2⟩
    cases k with
    | zero => rfl
    | succ k => rw [hnext]; exact (ih s).1 k (by omega)

/-- A state in which a command fails at its `n`-th write. -/
theorem failing_at (n : Nat) {s : State} (hg : s.guard = false) (hf : s.fatal = false) {evs : List Event}
    (hn : n < writesIn evs) : (failing n s).FailsAt n evs :=
  ⟨hg, hf, hn, (failing_answer n s).1, by rw [(failing_answer n s).2]; simp⟩

/-! ### One witness for each obligation with hypotheses (a clause each, at the ends of its range) -/

theorem witness_DecodeOfEncode :
    (Instr.sendserial (List.replicate 255 true)).wf = true ∧ (Instr.render []).wf = true := by decide +kernel

theorem witness_DecodeIsCanonical :
    decode [0x03#8, 0x03#8, 0x05#8, 0x04#8] = .ok (.sendserial [true, false, true]) [0x04#8] := by decide

theorem witness_IllegalWordsRefused :
    ((0x00#8 : Byte) = 0x00#8 ∧ (0x0A#8 : Byte) ≤ 0x0A#8 ∧ (0x0A#8 : Byte) ≤ 0xFF#8) ∧
    ((0x02#8 : Byte) ≤ 0x02#8 ∧ (0x02#8 : Byte) ≤ 0xFF#8) ∧
    (([0x08#8] : List Byte).length = ((0x03#8 : Byte).toNat + 7) / 8 ∧ (0x03#8 : Byte).toNat ≤ 3 ∧
      (([0x08#8] : List Byte).flatMap bitsOf)[3]? = some true) ∧
    (([0x80#8] : List Byte).flatMap bitsOf)[7]? = some true ∧
    (0x07#8 : Byte) ∈ [0x01#8, 0x02#8, 0x03#8, 0x05#8, 0x06#8, 0x07#8] ∧
    ([] : List Byte).length < ((0x01#8 : Byte).toNat + 7) / 8 ∧
    (List.replicate 31 0x00#8).length < ((0xFF#8 : Byte).toNat + 7) / 8 ∧
    ([] : List Byte).length < (0x01#8 : Byte).toNat := by decide

theorem witness_CommandLengths :
    decode [0x03#8, 0x03#8, 0x05#8] = .ok (.sendserial [true, false, true]) [] ∧
    decode [0x03#8, 0x03#8, 0x02#8, 0x04#8] = .ok (.sendserial [false, true, false]) [0x04#8] ∧
    [0x03#8, 0x03#8, 0x02#8, 0x04#8].take 2 = ([0x03#8, 0x03#8, 0x05#8] : List Byte).take 2 := by decide

theorem witness_PatternByteInverse :
    (List.replicate 8 true).length = 8 ∧ isMapped 0x30#8 = true ∧ isMapped 0x2E#8 = false := by decide

theorem witness_EncodePatternIsLetterSet :
    glyphOf 0x2D#8 = some .dash ∧ glyphOf 0x80#8 = none ∧
    [Segment.b, .g, .c, .p, .d, .e, .f, .a][0]? = some .b ∧
    [Segment.b, .g, .c, .p, .d, .e, .f, .a][7]? = some .a := by decide

theorem witness_EncodeAnswers : Requester.b ≠ State.reset.issuer := by decide

theorem witness_SpaceIsNotUnmapped : isMapped 0x2E#8 = false ∧ isMapped 0x20#8 = true := by decide

theorem witness_SendBitRuns :
    small.RunsThrough (sendBitEvents true) ∧ small.lines.clk = false ∧
    (failing 0 small).FailsAt 0 (sendBitEvents true) ∧ (failing 2 small).FailsAt 2 (sendBitEvents true) :=
  ⟨small_runs _, rfl, failing_at 0 rfl rfl (by decide), failing_at 2 rfl rfl (by decide)⟩

theorem witness_SendSerialRuns :
    small.RunsThrough ((List.replicate 8 true).reverse.flatMap sendBitEvents) ∧
    small.lines.clk = false ∧ (List.replicate 8 true).length = small.chain.stage.length ∧
    (failing 0 small).FailsAt 0 ([true].reverse.flatMap sendBitEvents) ∧
    (failing 23 small).FailsAt 23 ((List.replicate 8 true).reverse.flatMap sendBitEvents) :=
  ⟨small_runs _, rfl, rfl, failing_at 0 rfl rfl (by decide), failing_at 23 rfl rfl (by decide)⟩

theorem witness_SendSerialSplits :
    State.reset.RunsThrough (serialEvents [false, false, true, true] ++ serialEvents [true, false, true]) :=
  reset_runs _

theorem witness_LatchRuns :
    State.reset.RunsThrough latchEvents ∧ (failing 0 small).FailsAt 0 latchEvents ∧
    (failing 1 small).FailsAt 1 latchEvents :=
  ⟨reset_runs _, failing_at 0 rfl rfl (by decide), failing_at 1 rfl rfl (by decide)⟩

theorem witness_SwitchModeRuns :
    State.reset.RunsThrough (switchModeEvents true true) ∧
    (failing 0 small).FailsAt 0 (switchModeEvents true true) ∧
    (failing 16 small).FailsAt 16 (switchModeEvents false true) :=
  ⟨reset_runs _, failing_at 0 rfl rfl (by decide), failing_at 16 rfl rfl (by decide)⟩

theorem witness_SetBrightnessRuns :
    State.reset.RunsThrough (brightnessEvents true true 0x5A#8) ∧
    (failing 0 small).FailsAt 0 (brightnessEvents true true 0x5A#8) ∧
    (failing 252 small).FailsAt 252 (brightnessEvents true true 0x5A#8) :=
  ⟨reset_runs _, failing_at 0 rfl rfl (by decide +kernel), failing_at 252 rfl rfl (by decide +kernel)⟩

theorem witness_RenderRuns :
    State.reset.RunsThrough (renderEvents defaultLetters [0x31#8, 0x2E#8]) ∧
    mappedChars [0x2E#8] = [] ∧ State.reset.RunsThrough (renderEvents defaultLetters [0x2E#8]) ∧
    (failing 25 small).FailsAt 25 (renderEvents defaultLetters [0x31#8]) :=
  ⟨reset_runs _, by decide, reset_runs _, failing_at 25 rfl rfl (by decide)⟩

theorem witness_RenderIsSerialThenLatch :
    State.reset.RunsThrough (renderEvents State.reset.config.ctLetters [0x31#8, 0x32#8]) := reset_runs _

theorem witness_SetBrightnessIsComposition :
    State.reset.RunsThrough
      (brightnessEvents State.reset.config.leSpecialLevel State.reset.lines.oe 0x5A#8) ∧
    State.reset.lines.oe = true ∧
    (State.withLines small false false false false).RunsThrough (brightnessEvents true false 0x5A#8) :=
  ⟨reset_runs _, rfl, lines_run ..⟩

theorem witness_EnableRuns :
    State.reset.RunsThrough [.write .oe false] ∧ (failing 0 small).FailsAt 0 [.write .oe false] :=
  ⟨reset_runs _, failing_at 0 rfl rfl (by decide)⟩

theorem witness_DisableRuns :
    State.reset.RunsThrough [.write .oe true] ∧ (failing 0 small).FailsAt 0 [.write .oe true] :=
  ⟨reset_runs _, failing_at 0 rfl rfl (by decide)⟩

theorem witness_SerialShiftsStages :
    State.reset.RunsThrough (serialEvents [true]) ∧
    (State.withLines small true false false true).RunsThrough (serialEvents [true, false]) :=
  ⟨reset_runs _, lines_run ..⟩

theorem witness_LatchCommitsStages :
    small.RunsThrough latchEvents ∧ (State.withLines small false false true true).RunsThrough latchEvents ∧
    ({ small with chain := { small.chain with mode := .special } } : State).RunsThrough latchEvents :=
  ⟨small_runs _, lines_run .., rfl, rfl, fun _ _ => rfl⟩

theorem witness_SwitchModeSetsMode :
    small.lines.clk = false ∧ small.config.specialCommit = .never ∧
    small.RunsThrough (switchModeEvents small.config.leSpecialLevel small.lines.oe) ∧
    small.RunsThrough (switchModeEvents (!small.config.leSpecialLevel) small.lines.oe) :=
  ⟨rfl, rfl, small_runs _, small_runs _⟩

theorem witness_SetBrightnessConfiguresChain :
    State.reset.lines.clk = false ∧ State.reset.chain.stage.length = 72 ∧
    State.reset.config.specialCommit = .never ∧
    State.reset.RunsThrough
      (brightnessEvents State.reset.config.leSpecialLevel State.reset.lines.oe 0xFF#8) :=
  ⟨rfl, rfl, rfl, reset_runs _⟩

theorem witness_RenderCommitsFrame :
    State.reset.lines.clk = false ∧ State.reset.lines.le = false ∧
    State.reset.RunsThrough (renderEvents State.reset.config.ctLetters [0x31#8]) :=
  ⟨rfl, rfl, reset_runs _⟩

/-- Each of the three ways in which no mode switch has been begun: OE = 0, whatever the samples; LE_SPECIAL_LEVEL
= 1 and a low last sample; OE = 1 in the newest three samples, also with LE_SPECIAL_LEVEL = 0. -/
theorem witness_NoSwitchBegun :
    (State.withLines small false false false false).NoSwitchBegun ∧ small.NoSwitchBegun ∧
    ({ small with
      config := { small.config with leSpecialLevel := false }
      chain := { small.chain with
        samples := [(true, false), (true, false), (true, false), (false, false), (true, false)] } } :
      State).NoSwitchBegun :=
  ⟨.inl rfl, .inr (.inl ⟨rfl, fun _ => by simp [small]⟩), .inr (.inr (by decide))⟩

/-- Nine mapped characters on the chain of nine, from reset; the rightmost character's last bit. -/
theorem witness_FullFrameLandsInPlace :
    State.reset.lines.clk = false ∧ State.reset.lines.le = false ∧ State.reset.ChainSized ∧
    (mappedChars (List.replicate 9 0x38#8)).length = State.reset.config.nPositions ∧
    State.reset.chain.mode = .normal ∧ State.reset.NoSwitchBegun ∧
    (mappedChars (List.replicate 9 0x38#8))[8]? = some 0x38#8 ∧
    State.reset.RunsThrough (renderEvents State.reset.config.ctLetters (List.replicate 9 0x38#8)) :=
  ⟨rfl, rfl, ⟨rfl, rfl, rfl⟩, by decide, rfl,
    .inr (.inr (by simp [State.reset, State.resetWith, powerUpChain])), by decide, reset_runs _⟩

theorem witness_FullRenderIdempotent :
    small.lines.clk = false ∧ small.lines.le = false ∧ small.ChainSized ∧
    small.config.nPositions ≤ (mappedChars [0x38#8]).length ∧
    small.config.nPositions ≤ (mappedChars [0x38#8, 0x31#8]).length ∧
    small.chain.mode = .normal ∧ small.NoSwitchBegun ∧
    small.RunsThrough (renderEvents small.config.ctLetters [0x38#8] ++
      renderEvents small.config.ctLetters [0x38#8]) :=
  ⟨rfl, rfl, ⟨rfl, rfl, rfl⟩, by decide, by decide, rfl, .inr (.inr (by simp [small])), small_runs _⟩

theorem witness_CommandCounts :
    State.reset.RunsThrough
      (commandEvents State.reset.config State.reset.lines.oe (.setbrightness 0x5A#8)) := reset_runs _

theorem witness_DataStableOverPulses :
    small.lines.clk = false ∧ (∃ t, exec (.sendbit true) small = .next t) ∧
    (failing 2 small).lines.clk = false ∧ ∃ t, exec (.sendbit true) (failing 2 small) = .next t :=
  ⟨rfl, ⟨_, rfl⟩, rfl, ⟨_, rfl⟩⟩

theorem witness_CommandFrame :
    (∃ t, exec (.render [0x31#8]) small = .next t) ∧ (∃ t, exec (.encode 0x31#8) small = .next t) ∧
    Requester.b ≠ small.issuer ∧ needsGuard (.render [0x31#8]) = true ∧ small.config.ioCanFail = false :=
  ⟨⟨_, rfl⟩, ⟨_, rfl⟩, by decide, rfl, rfl⟩

theorem witness_ShiftFrame :
    (∃ b, Instr.sendbit true = .sendbit b) ∧ (∃ t, exec (.sendbit true) small = .next t) ∧
    (∃ bits, Instr.sendserial [true] = .sendserial bits) ∧ ∃ t, exec (.sendserial [true]) small = .next t :=
  ⟨⟨_, rfl⟩, ⟨_, rfl⟩, ⟨_, rfl⟩, ⟨_, rfl⟩⟩

theorem witness_LatchFrame : ∃ t, exec .latch small = .next t := ⟨_, rfl⟩

theorem witness_SwitchModeFrame :
    small.config.specialCommit = .never ∧ ∃ t, exec (.switchmode .special) small = .next t :=
  ⟨rfl, _, rfl⟩

theorem witness_SetBrightnessFrame :
    small.lines.clk = false ∧ small.config.specialCommit = .never ∧
    ∃ t, exec (.setbrightness 0x5A#8) small = .next t := ⟨rfl, rfl, _, rfl⟩

theorem witness_RenderFrame : ∃ t, exec (.render [0x31#8]) small = .next t := ⟨_, rfl⟩

theorem witness_EnableDisableFrame :
    (∃ t, exec .enable small = .next t) ∧ ∃ t, exec .disable small = .next t := ⟨⟨_, rfl⟩, _, rfl⟩

theorem witness_CommandWaits :
    needsGuard .latch = true ∧ ({ small with guard := true } : State).guard = true ∧
    ({ small with fatal := true } : State).fatal = true := ⟨rfl, rfl, rfl⟩

theorem witness_IoFailureEntry :
    needsGuard (.sendbit true) = true ∧
    (failing 2 small).FailsAt 2
      (commandEvents (failing 2 small).config (failing 2 small).lines.oe (.sendbit true)) :=
  ⟨rfl, failing_at 2 rfl rfl (by decide)⟩

theorem witness_RuleStopsAtFailedWrite :
    (failing 1 small).fatal = false ∧ (perform latchScript (failing 1 small)).fatal = true := by decide

theorem witness_NoFailureWithoutIoCanFail :
    small.config.ioCanFail = false ∧ small.fatal = false ∧
    ∃ t, step (commandsOfA [0x04#8] small) = .next t := ⟨rfl, rfl, _, rfl⟩

theorem witness_FatalFreezes :
    ({ commandsOfA [0x04#8] small with fatal := true } : State).fatal = true ∧
    ∃ t, step { commandsOfA [0x04#8] small with fatal := true } = .next t := ⟨rfl, _, rfl⟩

theorem witness_RefusedWordOnlyAnswers :
    (commandsOfA [0x0A#8, 0x04#8] small).pending .a ≠ [] ∧
    decode ((commandsOfA [0x0A#8, 0x04#8] small).pending .a) =
      .illegal (.reservedOpcode 0x0A#8) [0x04#8] ∧
    ∀ q, q ≠ Requester.a → (commandsOfA [0x0A#8, 0x04#8] small).ready q = false :=
  ⟨by decide, by decide, fun q h => by cases q with | a => exact absurd rfl h | b => rfl⟩

theorem witness_StepRunsCommand :
    decode ((commandsOfA [0x04#8] small).pending .a) = .ok .latch [] ∧
    (commandsOfA [0x04#8] small).starts .latch = true ∧
    ∀ q, q ≠ Requester.a → (commandsOfA [0x04#8] small).ready q = false :=
  ⟨by decide, by decide, fun q h => by cases q with | a => exact absurd rfl h | b => rfl⟩

/-- Both requesters can be served and B, whose word is a reserved opcode, goes first. -/
theorem witness_StepServesChosenRequester_refused :
    let s : State :=
      { commandsOfA [0x09#8] small with
        portB := { commands := [0x00#8], cp := 0, answers := [] }
        turns := { known := [.b], used := 0 } }
    s.ready .a = true ∧ s.ready .b = true ∧ s.turns.peek Config.freeTurn = .b ∧
      decode (s.pending .b) = .illegal (.reservedOpcode 0x00#8) [] := by decide

/-- V12 in small: A has DISABLE, B has ENABLE, and B goes first. -/
theorem witness_StepServesChosenRequester :
    let s : State :=
      { commandsOfA [0x09#8] small with
        portB := { commands := [0x08#8], cp := 0, answers := [] }
        turns := { known := [.b], used := 0 } }
    s.ready .a = true ∧ s.ready .b = true ∧ s.turns.peek Config.freeTurn = .b ∧
      decode (s.pending .b) = .ok .enable [] := by decide

theorem witness_StepAlwaysAnswers :
    State.reset.ready .a = false ∧ State.reset.ready .b = false := by decide

theorem witness_TraceGrowsByOneCommand :
    shows (fun t => t.fatal) (step (commandsOfA [0x04#8] small)) = some false := by decide

theorem witness_CommandPointerMovesByOne :
    (commandsOfA [0x04#8] (failing 1 small)).fatal = false ∧
    shows (fun t => t.fatal) (step (commandsOfA [0x04#8] (failing 1 small))) = some true := by decide

theorem witness_IdleLevelsKept :
    small.IdleLevels ∧ small.LastSampleLow ∧ ∃ t, step small = .next t :=
  ⟨fun _ => ⟨rfl, rfl⟩, fun _ => by simp [small], _, rfl⟩

theorem witness_GuardIsFatalKept : small.GuardIsFatal ∧ ∃ t, step small = .next t := ⟨rfl, _, rfl⟩

theorem witness_ChainSizeKept : small.ChainSized ∧ ∃ t, step small = .next t := ⟨⟨rfl, rfl, rfl⟩, _, rfl⟩

theorem witness_CommandPointersStayLegal :
    (commandsOfA [0x02#8, 0x02#8, 0x0A#8, 0x04#8] small).portA.CpLegal ∧
    (commandsOfA [0x02#8, 0x02#8, 0x0A#8, 0x04#8] small).portB.CpLegal ∧
    commandCount 4 [0x02#8, 0x02#8, 0x0A#8, 0x04#8] = 3 ∧
    ∃ t, step (commandsOfA [0x02#8, 0x02#8, 0x0A#8, 0x04#8] small) = .next t :=
  ⟨by decide, by decide, by decide, _, rfl⟩

theorem witness_TrafficNeverEntersSpecial :
    small.config.leSpecialLevel = true ∧ small.IdleLevels ∧ small.LastSampleLow ∧
    small.chain.mode = .normal ∧
    shows (fun t => t.chain.mode) (exec (.switchmode .special) small) = some .special :=
  ⟨rfl, fun _ => ⟨rfl, rfl⟩, fun _ => by simp [small], rfl, by decide⟩

/-- A RENDER of nine mapped characters: 72 clock widths and one latch width. -/
theorem witness_LeastDurations :
    ((72, 1) : Nat × Nat) = (8 * (mappedChars (List.replicate 9 0x38#8)).length, 1) ∧
    ((0, 1) : Nat × Nat) = (8 * (mappedChars [0x2E#8]).length, 1) ∧
    State.reset.RunsThrough (commandEvents State.reset.config State.reset.lines.oe
      (.render (List.replicate 9 0x38#8))) ∧
    State.reset.RunsThrough (commandEvents State.reset.config State.reset.lines.oe (.setbrightness 0xFF#8)) :=
  ⟨by decide, by decide, reset_runs _, reset_runs _⟩

/-- Zero and non-zero widths, a redundant write and a transition; a state whose trace leads to its lines, from
which a command completes. -/
theorem witness_WaveformIsFaithful :
    widthOf defaultConfig .clkw = 0 ∧ widthOf { defaultConfig with clockPulseWidth := 1 } .clkw ≠ 0 ∧
    (replay small.lines [.write .clk true]).get .clk ≠ false ∧
    replay small.lines small.trace = small.lines ∧
    (∃ t, exec (.sendbit true) small = .next t) ∧
    (∃ t, exec (.sendbit true) (failing 2 small) = .next t) ∧
    small.RunsThrough (commandEvents small.config small.lines.oe (.sendbit true)) ∧
    small.RunsThrough [.write .oe small.lines.oe] :=
  ⟨rfl, by decide, by decide, rfl, ⟨_, rfl⟩, ⟨_, rfl⟩, small_runs _, small_runs _⟩

end Sys2Proof.Tests
end

section
/-! PROOF. What reset leaves in each part of the state (10_state R21): one equation per field that the rule
names, for every configuration, and from them obligation O57. -/

namespace Sys2Proof.Machine

@[simp] theorem resetWith_lines (c : Config) : (State.resetWith c).lines =
    { clk := c.resetClk, data := c.resetData, le := c.resetLe, oe := true } := rfl
@[simp] theorem resetWith_guard (c : Config) : (State.resetWith c).guard = false := rfl
@[simp] theorem resetWith_fatal (c : Config) : (State.resetWith c).fatal = false := rfl
@[simp] theorem resetWith_trace (c : Config) : (State.resetWith c).trace = [] := rfl
@[simp] theorem resetWith_chain (c : Config) : (State.resetWith c).chain = powerUpChain c := rfl

/-- Neither requester has been given a command (R20). -/
@[simp] theorem resetWith_port (c : Config) (r : Requester) : (State.resetWith c).port r = Port.empty := by
  cases r <;> rfl

@[simp] theorem portEmpty_cp : Port.empty.cp = 0 := rfl

/-! Every bit of the chain is free at power-up (R38): stage and registers each have their own free values. -/

@[simp] theorem powerUpChain_stage (c : Config) :
    (powerUpChain c).stage = (List.range (8 * c.nPositions)).map Config.freeStage := rfl
@[simp] theorem powerUpChain_disp (c : Config) :
    (powerUpChain c).disp = (List.range (8 * c.nPositions)).map Config.freeDisp := rfl
@[simp] theorem powerUpChain_cfg (c : Config) :
    (powerUpChain c).cfg = (List.range (8 * c.nPositions)).map Config.freeCfg := rfl

/-- With the default parameters the three lines that CD leaves open are low (R21, D7). -/
theorem reset_lines : State.reset.lines = { clk := false, data := false, le := false, oe := true } :=
  resetWith_lines defaultConfig

/-- Settles O57: the equations of the fields for an arbitrary configuration, and the lines of the default one. -/
theorem resetValues : Obligations.ResetValues := by
  unfold Obligations.ResetValues
  refine ⟨fun c => ?_, reset_lines⟩
  have cpZero : ∀ r, ((State.resetWith c).port r).cp = 0 := fun r => by rw [resetWith_port, portEmpty_cp]
  rw [resetWith_chain]
  exact ⟨resetWith_lines c, resetWith_guard c, resetWith_fatal c, resetWith_trace c, cpZero,
    powerUpChain_stage c, powerUpChain_disp c, powerUpChain_cfg c⟩

end Sys2Proof.Machine
end

section
/-! PROOF. A command as a sequence of bytes: what the bytes of a decoded command are (30_encoding R53, R54, R57),
and from that their number and how the first two of them fix it (R55), obligation O5. -/

namespace Sys2Proof

/-! ### What an accepted operand says of its bytes -/

theorem decodeArg_ok {tail : List Byte} {k : Byte → List Byte → Decoded} {i : Instr} {rest : List Byte}
    (h : decodeArg tail k = .ok i rest) : ∃ arg after, tail = arg :: after ∧ k arg after = .ok i rest := by
  cases tail with
  | nil => cases h
  | cons arg after => exact ⟨arg, after, rfl, h⟩

theorem decodeBlock_ok {size : Nat → Nat} {tail : List Byte} {k : Nat → List Byte → List Byte → Decoded}
    {i : Instr} {rest : List Byte} (h : decodeBlock size tail k = .ok i rest) :
    ∃ (n : Byte) (block after : List Byte), tail = n :: (block ++ after) ∧ block.length = size n.toNat ∧
      k n.toNat block after = .ok i rest := by
  cases tail with
  | nil => cases h
  | cons n bytes =>
    by_cases hshort : bytes.length < size n.toNat
    · rw [decodeBlock_of_short size hshort] at h; cases h
    · rw [decodeBlock, if_neg hshort] at h
      exact ⟨n, _, _, by rw [List.take_append_drop], List.length_take_of_le (not_lt.mp hshort), h⟩

theorem decodeSendbit_ok {arg : Byte} {after rest : List Byte} {i : Instr}
    (h : decodeSendbit arg after = .ok i rest) :
    after = rest ∧ ∃ bit, i = .sendbit bit ∧ operandBytes (.sendbit bit) = [arg] := by
  unfold decodeSendbit at h
  split at h
  case isTrue h0 => cases h; exact ⟨rfl, false, rfl, by rw [h0]; rfl⟩
  case isFalse =>
    split at h
    case isTrue h1 => cases h; exact ⟨rfl, true, rfl, by rw [h1]; rfl⟩
    case isFalse => cases h

theorem decodeSwitchmode_ok {arg : Byte} {after rest : List Byte} {i : Instr}
    (h : decodeSwitchmode arg after = .ok i rest) :
    after = rest ∧ ∃ mode, i = .switchmode mode ∧ operandBytes (.switchmode mode) = [arg] := by
  unfold decodeSwitchmode at h
  split at h
  case isTrue h0 => cases h; exact ⟨rfl, .normal, rfl, by rw [h0]; rfl⟩
  case isFalse =>
    split at h
    case isTrue h1 => cases h; exact ⟨rfl, .special, rfl, by rw [h1]; rfl⟩
    case isFalse => cases h

/-- The unused bits of an accepted payload are 0, so packing the sequence gives the payload back (R54, R57). -/
theorem decodeSendserial_ok {n : Nat} {payload after rest : List Byte} {i : Instr}
    (hlen : payload.length = payloadSize n) (h : decodeSendserial n payload after = .ok i rest) :
    after = rest ∧ ∃ bits, i = .sendserial bits ∧ bits.length = n ∧
      packBits (payloadSize n) bits = payload := by
  unfold decodeSendserial at h
  split at h
  case isFalse => cases h
  case isTrue hpad =>
    cases h
    have hfits : n ≤ (payload.flatMap Machine.bitsOf).length := by
      rw [flatMap_bitsOf_length, hlen, payloadSize]; omega
    refine ⟨rfl, _, rfl, List.length_take_of_le hfits, ?_⟩
    have hunused : (payload.flatMap Machine.bitsOf).drop n =
        List.replicate ((payload.flatMap Machine.bitsOf).drop n).length false :=
      List.eq_replicate_of_mem fun b hb => by simpa using List.all_eq_true.mp hpad b hb
    rw [← packBits_append_false _ _ (List.take n _), ← hunused, List.take_append_drop, ← hlen,
      packBits_flatMap]

/-! ### Which commands have a byte form, and its length in formats V and S -/

theorem wf_sendserial {bits : List Level} : (Instr.sendserial bits).wf = true ↔ bits.length ≤ 255 :=
  decide_eq_true_iff

theorem wf_render {text : List Byte} : (Instr.render text).wf = true ↔ text.length ≤ 255 :=
  decide_eq_true_iff

theorem encode_sendserial_length (bits : List Level) :
    (encode (.sendserial bits)).length = 2 + payloadSize bits.length := by
  rw [encode, operandBytes, List.length_cons, List.length_cons, packBits_length, Nat.add_assoc, Nat.add_comm]

theorem encode_render_length (text : List Byte) : (encode (.render text)).length = 2 + text.length := by
  rw [encode, operandBytes, List.length_cons, List.length_cons, Nat.add_assoc, Nat.add_comm]

theorem lengthByte_toNat {n : Nat} (h : n ≤ 255) : (BitVec.ofNat 8 n).toNat = n :=
  Nat.mod_eq_of_lt (Nat.lt_succ_of_le h)

theorem byte_eq_of_toNat {b : Byte} {k : Nat} (h : b.toNat = k) : b = BitVec.ofNat 8 k := by
  rw [← h, BitVec.ofNat_toNat, BitVec.setWidth_eq]

/-! ### What an accepted command says of its bytes -/

/-- A command the decoder reads is well-formed, and its bytes are those of the encoder. -/
theorem decode_ok_canonical {bytes : List Byte} {i : Instr} {rest : List Byte}
    (h : decode bytes = .ok i rest) : i.wf = true ∧ bytes = encode i ++ rest := by
  cases bytes with
  | nil => cases h
  | cons op tail =>
    rw [decode] at h
    split at h
    case h_1 hk =>
      obtain ⟨arg, after, rfl, h⟩ := decodeArg_ok h
      cases h; exact ⟨rfl, by rw [byte_eq_of_toNat hk]; rfl⟩
    case h_2 hk =>
      obtain ⟨arg, after, rfl, h⟩ := decodeArg_ok h
      obtain ⟨rfl, bit, rfl, harg⟩ := decodeSendbit_ok h
      exact ⟨rfl, by rw [encode, harg, byte_eq_of_toNat hk]; rfl⟩
    case h_3 hk =>
      obtain ⟨n, payload, after, rfl, hlen, h⟩ := decodeBlock_ok h
      obtain ⟨rfl, bits, rfl, hn, hpack⟩ := decodeSendserial_ok hlen h
      exact ⟨wf_sendserial.mpr (by rw [hn]; exact Nat.le_of_lt_succ n.isLt),
        by rw [encode, operandBytes, ← byte_eq_of_toNat hn.symm, hn, hpack, byte_eq_of_toNat hk]; rfl⟩
    case h_4 hk => cases h; exact ⟨rfl, by rw [byte_eq_of_toNat hk]; rfl⟩
    case h_5 hk =>
      obtain ⟨arg, after, rfl, h⟩ := decodeArg_ok h
      obtain ⟨rfl, mode, rfl, harg⟩ := decodeSwitchmode_ok h
      exact ⟨rfl, by rw [encode, harg, byte_eq_of_toNat hk]; rfl⟩
    case h_6 hk =>
      obtain ⟨arg, after, rfl, h⟩ := decodeArg_ok h
      cases h; exact ⟨rfl, by rw [byte_eq_of_toNat hk]; rfl⟩
    case h_7 hk =>
      obtain ⟨n, text, after, rfl, hlen, h⟩ := decodeBlock_ok h
      cases h
      exact ⟨wf_render.mpr (by rw [hlen]; exact Nat.le_of_lt_succ n.isLt),
        by rw [encode, operandBytes, ← byte_eq_of_toNat hlen.symm, byte_eq_of_toNat hk]; rfl⟩
    case h_8 hk => cases h; exact ⟨rfl, by rw [byte_eq_of_toNat hk]; rfl⟩
    case h_9 hk => cases h; exact ⟨rfl, by rw [byte_eq_of_toNat hk]; rfl⟩
    case h_10 => cases h

/-! ### The number of bytes -/

/-- The number of bytes of a command by the format of its opcode (R55): Z, V, S, and B for the rest. Of the
bytes it reads only the first and, for V and S, the second. -/
def lengthOfPrefix : List Byte → Nat
  | [] => 0
  | op :: tail =>
    match op.toNat with
    | 0x04 | 0x08 | 0x09 => 1
    | 0x03 => 2 + payloadSize (tail.headD 0x00#8).toNat
    | 0x07 => 2 + (tail.headD 0x00#8).toNat
    | _ => 2

/-- The first two bytes of a well-formed command, or the first and what follows it, fix its length (R55). -/
theorem encode_length {i : Instr} (hwf : i.wf = true) (rest : List Byte) :
    (encode i).length = lengthOfPrefix ((encode i ++ rest).take 2) := by
  cases i with
  | encode ch => rfl
  | sendbit bit => rfl
  | sendserial bits =>
    have hbyte := lengthByte_toNat (wf_sendserial.mp hwf)
    rw [encode_sendserial_length]
    simp [encode, opcodeOf, operandBytes, lengthOfPrefix, hbyte]
  | latch => rfl
  | switchmode mode => rfl
  | setbrightness code => rfl
  | render text =>
    have hbyte := lengthByte_toNat (wf_render.mp hwf)
    rw [encode_render_length]
    simp [encode, opcodeOf, operandBytes, lengthOfPrefix, hbyte]
  | enable => rfl
  | disable => rfl

/-- What a decoded command consumes is the number its first two bytes give (R55). -/
theorem decode_ok_length {bytes : List Byte} {i : Instr} {rest : List Byte} (h : decode bytes = .ok i rest) :
    bytes.length = rest.length + lengthOfPrefix (bytes.take 2) := by
  obtain ⟨hwf, rfl⟩ := decode_ok_canonical h
  rw [← encode_length hwf, List.length_append, Nat.add_comm]

/-- Settles O5: the bytes are those of the encoder, whose number is the format's; and that number is a function of
the first two bytes. -/
theorem commandLengths : Obligations.CommandLengths := by
  unfold Obligations.CommandLengths
  intro bytes i rest h
  constructor
  · obtain ⟨-, rfl⟩ := decode_ok_canonical h
    rw [List.length_append, Nat.add_comm]
    congr 1
    cases i with
    | sendserial bits => exact encode_sendserial_length bits
    | render text => exact encode_render_length text
    | encode | sendbit | latch | switchmode | setbrightness | enable | disable => rfl
  · intro other j rest' hother htake
    have hlen := decode_ok_length h
    have hlen' := decode_ok_length hother
    rw [htake] at hlen'
    omega

end Sys2Proof
end

section
/-! PROOF. A byte as a sequence of bits (30_encoding R51): the weights of the bits, the pair of a pattern, and
obligation O6. -/

namespace Sys2Proof.Machine

/-- The recursion of `weightOf` is R51's sum: index k has weight 2^k. -/
theorem weightOf_eq_sum (bits : List Level) :
    weightOf bits = ((List.range bits.length).map (fun k => (bits.getD k false).toNat * 2 ^ k)).sum := by
  induction bits with
  | nil => rfl
  | cons b bs ih =>
    have hshift : ∀ k, ((b :: bs).getD (k + 1) false).toNat * 2 ^ (k + 1) =
        2 * ((bs.getD k false).toNat * 2 ^ k) := fun k => by
      rw [List.getD_cons_succ, Nat.pow_succ]; ring
    rw [List.length_cons, List.range_succ_eq_map, List.map_cons, List.map_map, List.sum_cons,
      List.getD_cons_zero, Nat.pow_zero, Nat.mul_one, weightOf, ih, ← List.sum_map_mul_left]
    exact congrArg (fun l => b.toNat + l.sum) (List.map_congr_left fun k _ => (hshift k).symm)

/-- Eight bits fit in a byte, so no weight is lost. -/
theorem byteOf_toNat {bits : List Level} (h : bits.length ≤ 8) : (byteOf bits).toNat = weightOf bits :=
  Nat.mod_eq_of_lt ((weightOf_lt bits).trans_le (Nat.pow_le_pow_right (by decide) h))

theorem bitsOf_byteOf {bits : List Level} (h : bits.length = 8) : bitsOf (byteOf bits) = bits := by
  rw [bitsOf_byteOf_of_le h.le, h, Nat.sub_self, List.replicate_zero, List.append_nil]

theorem encodeResult_of_mapped (t : CharacterTable) {ch : Byte} (h : isMapped ch = true) :
    encodeResult t ch = (0x01#8, byteOf (encodeChar t ch)) := if_pos h

theorem encodeResult_of_unmapped (t : CharacterTable) {ch : Byte} (h : isMapped ch = false) :
    encodeResult t ch = (0x00#8, 0x00#8) := if_neg (by simp [h])

/-- Settles O6: the two inverses and the weights, the pair by whether the character is mapped, and the order on
DATA from `levelsOn_serialEvents`. -/
theorem patternByteInverse : Obligations.PatternByteInverse := by
  unfold Obligations.PatternByteInverse
  refine ⟨fun bits h => ⟨bitsOf_byteOf h, ?_⟩, fun pat => ⟨byteOf_bitsOf pat, fun k hk => ?_⟩,
    fun t ch h => ⟨encodeResult_of_mapped t h, ?_⟩, fun t ch => encodeResult_of_unmapped t, fun pat => ?_⟩
  · rw [byteOf_toNat h.le, weightOf_eq_sum, h]
  · rw [bitsOf_getElem?, if_pos hk]
  · rw [encodeResult_of_mapped t h]
    exact bitsOf_byteOf (by rw [encodeChar_length, if_pos h])
  · rw [levelsOn_serialEvents]; rfl

end Sys2Proof.Machine
end

section
/-! PROOF. The segment encoder (40_segment_encoder): which codes the table maps (R52), the pattern of a character as
the set of its letters (R70, R71), the answer of ENCODE, and obligations O7 and O8. -/

namespace Sys2Proof.Machine

/-! ### The mapped codes (R52) -/

/-- The two sides by the arms of `glyphOf`: each arm fixes the code, the last one shuts out all twelve. -/
theorem isMapped_iff (ch : Byte) :
    isMapped ch = true ↔ (0x30#8 ≤ ch ∧ ch ≤ 0x39#8) ∨ ch = 0x2D#8 ∨ ch = 0x20#8 := by
  simp only [isMapped, BitVec.le_def, ← BitVec.toNat_inj, BitVec.toNat_ofNat]
  unfold glyphOf
  split
  case h_13 =>
    simp only [imp_false] at *
    simp only [Option.isSome_none, Bool.false_eq_true, false_iff]; omega
  all_goals simp only [Option.isSome_some, true_iff]; omega

/-! ### The pattern of a character (R70, R71) -/

theorem isMapped_of_glyph {ch : Byte} {g : Glyph} (h : glyphOf ch = some g) : isMapped ch = true := by
  rw [isMapped, h, Option.isSome_some]

theorem encodeChar_of_no_glyph (t : CharacterTable) {ch : Byte} (h : glyphOf ch = none) :
    encodeChar t ch = [] :=
  encodeChar_of_unmapped t (by rw [isMapped, h, Option.isSome_none])

/-- An output is lit exactly when its letter is in the character's set (R71). -/
theorem encodeChar_getElem?_eq_true {t : CharacterTable} {ch : Byte} {g : Glyph} (hg : glyphOf ch = some g)
    {k : Nat} {l : Segment} (hl : outputLetters[k]? = some l) :
    (encodeChar t ch)[k]? = some true ↔ l ∈ lettersOf t g := by
  rw [encodeChar_of_glyph hg, List.getElem?_map, hl, Option.map_some, Option.some_inj, decide_eq_true_iff]

/-- Settles O7: the codes by `isMapped_iff`, their entries by evaluation, and the patterns output by output. -/
theorem encodePatternIsLetterSet : Obligations.EncodePatternIsLetterSet := by
  unfold Obligations.EncodePatternIsLetterSet
  refine ⟨isMapped_iff, rfl, fun t => rfl, fun t ch => ⟨fun g hg => ⟨?_, fun k l hl => ?_⟩, ?_⟩⟩
  · rw [encodeChar_length, if_pos (isMapped_of_glyph hg)]
  · exact encodeChar_getElem?_eq_true hg hl
  · exact encodeChar_of_no_glyph t

/-! ### The answer (R59, R70) -/

/-- An answer reaches its issuer, whose `CP` moves by one, and no other requester. -/
theorem answer_port_issuer (x : Answer) (s : State) :
    (s.answer x).port s.issuer =
      { s.port s.issuer with
        cp := (s.port s.issuer).cp + 1
        answers := (s.port s.issuer).answers ++ [x] } := by
  rw [State.answer, port_setPort, if_pos rfl]

theorem answer_port_of_ne (x : Answer) {s : State} {r : Requester} (h : r ≠ s.issuer) :
    (s.answer x).port r = s.port r := by
  rw [State.answer, port_setPort, if_neg h]

theorem answer_sameBlock (x : Answer) (s : State) : s.SameBlock (s.answer x) :=
  ⟨answer_lines x s, answer_guard x s, answer_fatal x s, answer_failure x s, answer_trace x s, answer_chain x s,
    answer_saveSm x s, answer_saveSb x s⟩

/-- ENCODE is its answer and nothing more (R70): it looks at neither GUARD nor FATAL. -/
theorem exec_encode (ch : Byte) (s : State) :
    exec (.encode ch) s = .next (s.answer
      (if isMapped ch then .pattern 0x01#8 (byteOf (encodeChar s.config.ctLetters ch))
        else .pattern 0x00#8 0x00#8)) := by
  rw [exec, execEncode]
  cases h : isMapped ch with
  | true => rw [encodeResult_of_mapped _ h, if_pos rfl]
  | false => rw [encodeResult_of_unmapped _ h, if_neg Bool.false_ne_true]

/-- Settles O8: `exec_encode`, and what an answer does to its issuer and leaves as it was. -/
theorem encodeAnswers : Obligations.EncodeAnswers := by
  unfold Obligations.EncodeAnswers
  intro ch s
  exact ⟨rfl, rfl, _, exec_encode ch s, answer_port_issuer _ s, fun r => answer_port_of_ne _, answer_sameBlock _ s,
    answer_config _ s, answer_issuer _ s, answer_io _ s, answer_turns _ s⟩

end Sys2Proof.Machine
end

section
/-! PROOF. The serial transport's shifting commands (41_serial_transport sections 1 and 2): what a command does when
one of its writes fails, a command that is others joined, and obligations O11 to O13. -/

namespace Sys2Proof.Machine

/-! ### Any command under the guard -/

/-- A command one of whose writes fails ends there (R112): the counterpart of `exec_of_runs`. -/
theorem exec_of_fails {i : Instr} (hi : needsGuard i = true) {s : State} {n : Nat}
    (h : s.FailsAt n (commandEvents s.config s.lines.oe i)) :
    ∃ t, exec i s = .next t ∧ s.IoFailed t n (commandEvents s.config s.lines.oe i) := by
  rw [← eventsOf_command] at h ⊢
  exact ⟨_, exec_underGuard hi s, underGuard_ioFailed h⟩

/-- A command whose script is the scripts of others joined does what they do one after the other (R61, R83). -/
theorem exec_execAll_of_runs {i : Instr} (hi : needsGuard i = true) {is : List Instr}
    (his : ∀ j ∈ is, needsGuard j = true) {s : State}
    (hscript : is.flatMap (commandScript s.config) = commandScript s.config i)
    (h : s.RunsThrough (commandEvents s.config s.lines.oe i)) :
    ∃ t u, exec i s = .next t ∧ execAll is s = .next u ∧
      t.trace = s.trace ++ commandEvents s.config s.lines.oe i ∧
      u.trace = t.trace ∧ u.lines = t.lines ∧ u.chain = t.chain := by
  obtain ⟨t, ht, ⟨-, tlines, -, -, ttrace, tchain⟩, hevents, -⟩ := exec_of_runs hi h
  rw [← eventsOf_command, ← hscript] at h
  obtain ⟨u, hu, ⟨-, ulines, -, -, utrace, uchain⟩, -, -⟩ := execAll_of_runs is his h
  rw [hscript] at ulines utrace uchain
  exact ⟨t, u, ht, hu, hevents, utrace.trans ttrace.symm, ulines.trans tlines.symm, uchain.trans tchain.symm⟩

/-! ### SENDBIT -/

/-- Settles O11: the events are the command's, and the bit goes into stage 0 at the rise of CLK
(`quietAll_sendBit`). -/
theorem sendBitRuns : Obligations.SendBitRuns := by
  unfold Obligations.SendBitRuns
  intro bit s
  refine ⟨rfl, fun hrun => ?_, fun n hfail => ?_⟩
  · obtain ⟨t, ht, ⟨-, hlines, -, -, -, hchain⟩, hdone⟩ := exec_of_runs (i := .sendbit bit) rfl hrun
    obtain ⟨lines, chain⟩ := quietAll_sendBit bit s.guarded
    refine ⟨t, ht, hdone, hlines.trans lines, fun hclk => ?_⟩
    rw [hchain, commandScript, chain, if_neg (by simp [hclk])]
    rfl
  · have ⟨_, _, hn, _⟩ := hfail
    exact ⟨hn, exec_of_fails (i := .sendbit bit) rfl hfail⟩

/-! ### SENDSERIAL -/

/-- Element k of the operand is bit k mod 8 of payload byte k div 8 (R54). -/
theorem encode_sendserial_payload (bits : List Level) :
    ∃ payload : List Byte,
      encode (.sendserial bits) = 0x03#8 :: BitVec.ofNat 8 bits.length :: payload ∧
      payload.length = (bits.length + 7) / 8 ∧
      ∀ k, (payload.getD (k / 8) 0x00#8).getLsbD (k % 8) = bits.getD k false :=
  ⟨packBits (payloadSize bits.length) bits, rfl, packBits_length _ _,
    packBits_getLsbD _ (by unfold payloadSize; omega)⟩

/-- As many bits as the chain has stages push every old one out (R41). -/
theorem sendserial_fills_chain {bits : List Level} {s t : State}
    (ht : (s.guarded.quietAll (sendSerialScript bits)).SameWire t) (hclk : s.lines.clk = false)
    (hlen : bits.length = s.chain.stage.length) : t.chain.stage = bits := by
  obtain ⟨-, -, -, -, -, hchain⟩ := ht
  rw [hchain, (quietAll_sendSerial_chain bits s.guarded hclk).2]
  exact List.take_left' hlen

/-- Settles O12: the events are the command's (`serialEvents`), the lines are where they lead. -/
theorem sendSerialRuns : Obligations.SendSerialRuns := by
  unfold Obligations.SendSerialRuns
  intro bits s
  refine ⟨encode_sendserial_payload bits, levelsOn_serialEvents bits, fun b => rfl, fun hrun => ?_,
    fun n hfail => exec_of_fails (i := .sendserial bits) rfl hfail⟩
  obtain ⟨t, ht, hwire, hdone⟩ := exec_of_runs (i := .sendserial bits) rfl hrun
  have ⟨_, hlines, _⟩ := hdone
  exact ⟨t, ht, hdone, hlines.trans (replay_serialEvents s.lines bits), sendserial_fills_chain hwire⟩

/-- Settles O13: the script of the joined sequence is the script of its last piece followed by that of its
first; of two single bits that differ the other order gives other events. -/
theorem sendSerialSplits : Obligations.SendSerialSplits := by
  unfold Obligations.SendSerialSplits
  refine ⟨⟨[true], [false], by decide⟩, fun xs ys s hrun => ?_⟩
  rw [← serialEvents_append] at hrun ⊢
  refine exec_execAll_of_runs (i := .sendserial (xs ++ ys)) rfl (by simp [needsGuard]) ?_ hrun
  simp [commandScript, sendSerial_append]

end Sys2Proof.Machine
end

section
/-! PROOF. The mode switch and the brightness code (41_serial_transport sections 4 and 5): the lines their events
lead to, the number of their events, and obligations O15 and O16. -/

namespace Sys2Proof.Machine

/-! ### SWITCHMODE -/

@[simp] theorem switchModeEvents_length (level oe : Level) : (switchModeEvents level oe).length = 22 := rfl

@[simp] theorem writesIn_switchModeEvents (level oe : Level) : writesIn (switchModeEvents level oe) = 17 := rfl

theorem replay_switchModeEvents (ls : Lines) (level oe : Level) :
    replay ls (switchModeEvents level oe) = { ls with clk := false, le := false, oe := oe } := rfl

theorem commandEvents_switchmode (c : Config) (oe : Level) (m : ChainMode) :
    commandEvents c oe (.switchmode m) = switchModeEvents (levelFor c.leSpecialLevel m) oe := by
  cases m <;> rfl

/-- The level LE has at pulse 4, written as a condition on the target (R86). -/
theorem levelFor_eq_ite (special : Level) (m : ChainMode) :
    levelFor special m = if m = .special then special else !special := by
  cases m <;> rfl

theorem encode_switchmode (m : ChainMode) :
    encode (.switchmode m) = [0x05#8, if m = .normal then 0x00#8 else 0x01#8] := by
  cases m <;> rfl

/-- Settles O15: the 22 events are `switchModeEvents`, the lines and the save registers those of
`quietAll_switchMode`. -/
theorem switchModeRuns : Obligations.SwitchModeRuns := by
  unfold Obligations.SwitchModeRuns
  intro m s
  refine ⟨encode_switchmode m, fun level evs hlevel hevs => ?_⟩
  have hcommand : evs = commandEvents s.config s.lines.oe (.switchmode m) := by
    rw [commandEvents_switchmode, levelFor_eq_ite, ← hlevel, hevs]; rfl
  rw [hcommand]
  refine ⟨fun hrun => ?_, fun n hfail => ⟨?_, exec_of_fails rfl hfail⟩⟩
  · obtain ⟨t, ht, ⟨-, hlines, hsm, hsb, -, -⟩, hdone⟩ := exec_of_runs rfl hrun
    obtain ⟨lines, saveSm, saveSb⟩ := quietAll_switchMode s.config.leSpecialLevel m s.guarded
    exact ⟨t, ht, hdone, hlines.trans lines, hsm.trans saveSm, hsb.trans saveSb⟩
  · obtain ⟨-, -, hn, -⟩ := hfail
    rwa [commandEvents_switchmode, writesIn_switchModeEvents] at hn

/-! ### SETBRIGHTNESS -/

/-- SENDSERIAL of a sequence several times has the events of one SENDSERIAL of the sequence repeated (R83). -/
theorem flatten_replicate_serialEvents (n : Nat) (bits : List Level) :
    (List.replicate n (serialEvents bits)).flatten = serialEvents (List.replicate n bits).flatten := by
  induction n with
  | zero => rfl
  | succ n ih =>
    rw [List.replicate_succ, List.flatten_cons, ih, ← serialEvents_append, List.replicate_succ',
      List.flatten_append, List.flatten_singleton]

/-- The code nine times over (R88, R89). -/
def brightnessBits (code : Byte) : List Level := (List.replicate 9 (bitsOf code)).flatten

@[simp] theorem brightnessBits_length (code : Byte) : (brightnessBits code).length = 72 := rfl

theorem brightnessEvents_eq (special oe : Level) (code : Byte) :
    brightnessEvents special oe code =
      switchModeEvents special oe ++ (serialEvents (brightnessBits code) ++
        (latchEvents ++ ([.write .oe oe] ++ switchModeEvents (!special) oe))) := by
  simp only [brightnessEvents, flatten_replicate_serialEvents, brightnessBits, List.append_assoc,
    List.singleton_append]

theorem brightnessEvents_length (special oe : Level) (code : Byte) :
    (brightnessEvents special oe code).length = 336 := by
  simp [brightnessEvents_eq, serialEvents_length, latchEvents]

/-- The lines after SETBRIGHTNESS (R88): DATA keeps the code's bit 0, the last one sent. -/
theorem replay_brightnessEvents (ls : Lines) (special oe : Level) (code : Byte) :
    replay ls (brightnessEvents special oe code) =
      { clk := false, data := code.getLsbD 0, le := false, oe := oe } := by
  rw [brightnessEvents_eq, replay_append, replay_append, replay_serialEvents, replay_append, replay_append,
    replay_switchModeEvents]
  rfl

/-- Settles O16: the events are `brightnessEvents`, the lines are where they lead, the save registers those of
`quietAll_setBrightness_saves`. -/
theorem setBrightnessRuns : Obligations.SetBrightnessRuns := by
  unfold Obligations.SetBrightnessRuns
  intro code s
  refine ⟨rfl, fun evs hevs => ?_⟩
  have hcommand : evs = commandEvents s.config s.lines.oe (.setbrightness code) := by
    rw [hevs, commandEvents, brightnessEvents, bitsOf, List.append_assoc, List.singleton_append]
  rw [hcommand]
  refine ⟨brightnessEvents_length _ _ code, fun hrun => ?_, fun n hfail => exec_of_fails rfl hfail⟩
  obtain ⟨t, ht, ⟨-, -, hsm, hsb, -, -⟩, hdone⟩ := exec_of_runs rfl hrun
  obtain ⟨saveSm, saveSb⟩ := quietAll_setBrightness_saves s.config.leSpecialLevel code s.guarded
  have ⟨_, hlines, _⟩ := hdone
  exact ⟨t, ht, hdone, hlines.trans (replay_brightnessEvents ..), hsb.trans saveSb, hsm.trans saveSm⟩

end Sys2Proof.Machine
end

section
/-! PROOF. The table of R91 (41_serial_transport section 6): counts of joined event lists add up, each piece is
counted once, and obligation O17. -/

namespace Sys2Proof.Machine

/-! ### Events, clock pulses and writes of OE -/

/-- The first three columns of R91's table over some events: events, clock pulses, writes of OE. -/
def tally (evs : List Event) : Nat × Nat × Nat :=
  (evs.length, timesWritten .clk true evs, timesWritten .oe true evs + timesWritten .oe false evs)

theorem tally_append (xs ys : List Event) : tally (xs ++ ys) = tally xs + tally ys := by
  simp only [tally, timesWritten, List.length_append, List.count_append, Prod.mk_add_mk]
  rw [Nat.add_add_add_comm]

theorem tally_serialEvents (bits : List Level) : tally (serialEvents bits) = (4 * bits.length, bits.length, 0) := by
  have hclk : clockEvents.count (.write .clk true) = 1 := rfl
  have hoe : ∀ v, clockEvents.count (.write .oe v) = 0 := fun v => by cases v <;> rfl
  simp [tally, timesWritten, serialEvents_length, count_serialEvents, hclk, hoe]

theorem tally_latchEvents : tally latchEvents = (3, 0, 0) := rfl

theorem tally_switchModeEvents (level oe : Level) : tally (switchModeEvents level oe) = (22, 5, 4) := by
  cases oe <;> rfl

theorem tally_writeOe (oe : Level) : tally [.write .oe oe] = (1, 0, 1) := by cases oe <;> rfl

theorem tally_brightnessEvents (special oe : Level) (code : Byte) :
    tally (brightnessEvents special oe code) = (336, 82, 9) := by
  rw [brightnessEvents_eq]
  simp only [tally_append, tally_switchModeEvents, tally_serialEvents, tally_latchEvents, tally_writeOe,
    brightnessBits_length]
  rfl

theorem tally_renderEvents (t : CharacterTable) (text : List Byte) :
    tally (renderEvents t text) = (32 * (mappedChars text).length + 3, 8 * (mappedChars text).length, 0) := by
  rw [renderEvents_eq, tally_append, tally_serialEvents, tally_latchEvents, textPatterns_length,
    ← Nat.mul_assoc]
  rfl

/-! ### Transitions of LE -/

/-- All lines at 0. -/
def lowLines : Lines := { clk := false, data := false, le := false, oe := false }

/-- Events that leave LE at 0 do not change the count after them. -/
theorem rises_le_append {xs : List Event} (h : (replay lowLines xs).le = false) (ys : List Event) :
    rises .le false (xs ++ ys) = rises .le false xs + rises .le false ys := by
  have hjoin := rises_append .le lowLines xs ys
  simp only [Lines.get, h] at hjoin
  exact hjoin

theorem replay_serialEvents_le (ls : Lines) (bits : List Level) :
    (replay ls (serialEvents bits)).le = ls.le := by rw [replay_serialEvents]

theorem rises_le_serialEvents (bits : List Level) : rises .le false (serialEvents bits) = 0 := by
  induction bits with
  | nil => rfl
  | cons b bs ih => rw [serialEvents_cons, rises_le_append (replay_serialEvents_le lowLines bs), ih]; rfl

theorem rises_le_latchEvents : rises .le false latchEvents = 1 := rfl

/-- LE rises inside SWITCHMODE exactly when its level at pulse 4 is 1 (R86). -/
theorem rises_le_switchModeEvents (level oe : Level) :
    rises .le false (switchModeEvents level oe) = if level then 1 else 0 := by
  cases level <;> rfl

/-- One of the two switches raises LE, and the latch pulse does. -/
theorem rises_le_brightnessEvents (special oe : Level) (code : Byte) :
    rises .le false (brightnessEvents special oe code) = 2 := by
  rw [brightnessEvents_eq, rises_le_append rfl, rises_le_append (replay_serialEvents_le lowLines _),
    rises_le_append rfl, rises_le_append rfl, rises_le_switchModeEvents, rises_le_switchModeEvents,
    rises_le_serialEvents, rises_le_latchEvents]
  cases special <;> rfl

theorem rises_le_renderEvents (t : CharacterTable) (text : List Byte) :
    rises .le false (renderEvents t text) = 1 := by
  rw [renderEvents_eq, rises_le_append (replay_serialEvents_le lowLines _), rises_le_serialEvents,
    rises_le_latchEvents]

/-! ### Every command -/

/-- A command none of whose writes fails appends its events, ENCODE none (R70). -/
theorem exec_trace_of_runs (i : Instr) {s : State} (h : s.RunsThrough (commandEvents s.config s.lines.oe i)) :
    ∃ t, exec i s = .next t ∧ t.trace = s.trace ++ commandEvents s.config s.lines.oe i := by
  by_cases hi : needsGuard i = true
  · obtain ⟨t, ht, -, hevents, -⟩ := exec_of_runs hi h
    exact ⟨t, ht, hevents⟩
  · cases i with
    | encode ch => exact ⟨_, rfl, by rw [answer_trace, commandEvents, List.append_nil]⟩
    | _ => exact absurd rfl hi

/-- Settles O17: the columns of the table command by command, each from the counts of its pieces. -/
theorem commandCounts : Obligations.CommandCounts := by
  unfold Obligations.CommandCounts
  refine ⟨fun i s => exec_trace_of_runs i, fun c oe i => ⟨?_, ?_⟩⟩
  · change tally (commandEvents c oe i) = _
    cases i with
    | sendserial bits => exact tally_serialEvents bits
    | switchmode m => rw [commandEvents_switchmode]; exact tally_switchModeEvents _ oe
    | setbrightness code => exact tally_brightnessEvents _ oe code
    | render text => exact tally_renderEvents _ text
    | encode | sendbit | latch | enable | disable => rfl
  · cases i with
    | sendserial bits => exact rises_le_serialEvents bits
    | switchmode m =>
      rw [commandEvents_switchmode, rises_le_switchModeEvents]
      cases m with
      | normal => cases c.leSpecialLevel <;> rfl
      | special => rfl
    | setbrightness code => exact rises_le_brightnessEvents _ oe code
    | render text => exact rises_le_renderEvents _ text
    | encode | sendbit | latch | enable | disable => rfl

end Sys2Proof.Machine
end

section
/-! PROOF. The display driver's write of OE (42_display_driver section 2): what it leaves of the lines and the
chain, what the lamps show at OE = 0, and obligation O23. -/

namespace Sys2Proof.Machine

/-! ### One write of OE -/

/-- The write sets OE, whatever its level was, and the chain does not react to it (R34). -/
theorem quietAll_writeOe (v : Level) (s : State) :
    (s.quietAll [.line .oe v]).lines = { s.lines with oe := v } ∧
    (s.quietAll [.line .oe v]).chain = s.chain := by
  simp [State.quiet, Lines.set, Chain.react]

/-- At OE = 0 the lamps show the display register (R34). -/
theorem lamps_of_oe_low (ch : Chain) : ch.lamps false = ch.disp := if_neg Bool.false_ne_true

/-! ### ENABLE -/

/-- Settles O23: the one event is the command's, and the lines and the chain are those after a write of OE
(`quietAll_writeOe`). -/
theorem enableRuns : Obligations.EnableRuns := by
  unfold Obligations.EnableRuns
  intro s
  refine ⟨rfl, fun hrun => ?_, exec_of_fails (i := .enable) rfl⟩
  obtain ⟨t, ht, ⟨-, hlines, -, -, -, hchain⟩, hdone⟩ := exec_of_runs (i := .enable) rfl hrun
  obtain ⟨lines, chain⟩ := quietAll_writeOe false s.guarded
  replace hlines : t.lines = { s.lines with oe := false } := hlines.trans lines
  replace hchain : t.chain = s.chain := hchain.trans chain
  refine ⟨t, ht, hdone, hlines, hchain, ?_⟩
  rw [hlines, hchain]
  exact lamps_of_oe_low s.chain

end Sys2Proof.Machine
end

section
/-! PROOF. The byte form as a whole (30_encoding R53 to R57): the decoder reads back every well-formed command, reads
no other bytes as one, and refuses the illegal words each by its reason; obligations O1 to O4. -/

namespace Sys2Proof

open Machine (bitsOf)

/-! ### Decoding what was encoded -/

/-- The bits beyond the sequence are the 0s that packing put there, so none is a set unused bit (R54, R57). -/
theorem decodeSendserial_packBits (bits : List Level) (rest : List Byte) :
    decodeSendserial bits.length (packBits (payloadSize bits.length) bits) rest = .ok (.sendserial bits) rest := by
  have hpacked := flatMap_packBits (payloadSize bits.length) (bits := bits) (by unfold payloadSize; omega)
  rw [decodeSendserial, hpacked, List.drop_left, List.take_left, if_pos]
  exact List.all_eq_true.mpr fun b hb => by rw [List.eq_of_mem_replicate hb]; rfl

theorem decode_encode_sendserial {bits : List Level} (h : bits.length ≤ 255) (rest : List Byte) :
    decode (encode (.sendserial bits) ++ rest) = .ok (.sendserial bits) rest := by
  have hlen := lengthByte_toNat h
  have hsize : (packBits (payloadSize bits.length) bits).length =
      payloadSize (BitVec.ofNat 8 bits.length).toNat := by rw [packBits_length, hlen]
  have hblock := decodeBlock_of_bytes payloadSize hsize rest decodeSendserial
  rw [hlen, decodeSendserial_packBits] at hblock
  exact hblock

theorem decode_encode_render {text : List Byte} (h : text.length ≤ 255) (rest : List Byte) :
    decode (encode (.render text) ++ rest) = .ok (.render text) rest :=
  decodeBlock_of_bytes (fun n => n) (n := BitVec.ofNat 8 text.length) (lengthByte_toNat h).symm rest
    (fun _ chars rest => .ok (.render chars) rest)

theorem decode_encode_sendbit (bit : Level) (rest : List Byte) :
    decode (encode (.sendbit bit) ++ rest) = .ok (.sendbit bit) rest := by cases bit <;> rfl

theorem decode_encode_switchmode (mode : ChainMode) (rest : List Byte) :
    decode (encode (.switchmode mode) ++ rest) = .ok (.switchmode mode) rest := by cases mode <;> rfl

/-- Settles O2: command by command; only formats V and S have a length byte, which holds up to 255. -/
theorem decodeOfEncode : Obligations.DecodeOfEncode := by
  unfold Obligations.DecodeOfEncode
  intro i rest hwf
  cases i with
  | sendbit bit => exact decode_encode_sendbit bit rest
  | sendserial bits => exact decode_encode_sendserial (wf_sendserial.mp hwf) rest
  | switchmode mode => exact decode_encode_switchmode mode rest
  | render text => exact decode_encode_render (wf_render.mp hwf) rest
  | encode | latch | setbrightness | enable | disable => rfl

/-- Settles O3: `decode_ok_canonical`, which goes through the opcodes. -/
theorem decodeIsCanonical : Obligations.DecodeIsCanonical := by
  unfold Obligations.DecodeIsCanonical
  exact fun _ _ _ => decode_ok_canonical

/-- Settles O1: each word by evaluation of the decoder. -/
theorem sampleWordsDecode : Obligations.SampleWordsDecode := by
  unfold Obligations.SampleWordsDecode
  exact ⟨rfl, rfl, rfl, rfl, rfl, rfl, rfl, rfl, rfl⟩

/-! ### Illegal words -/

/-- The arms of the nine opcodes are shut out by the value of the byte (R56, R57). -/
theorem decode_reserved {op : Byte} (h : op = 0x00#8 ∨ 0x0A#8 ≤ op) (rest : List Byte) :
    decode (op :: rest) = .illegal (.reservedOpcode op) rest := by
  rw [BitVec.le_def, ← BitVec.toNat_inj, BitVec.toNat_ofNat, BitVec.toNat_ofNat] at h
  rw [decode]
  split
  case h_10 => rfl
  all_goals omega

theorem ne_of_two_le {arg : Byte} (h : 0x02#8 ≤ arg) : arg ≠ 0x00#8 ∧ arg ≠ 0x01#8 := by
  constructor <;> rintro rfl <;> exact absurd h (by decide)

theorem decodeSendbit_bad {arg : Byte} (h : 0x02#8 ≤ arg) (rest : List Byte) :
    decodeSendbit arg rest = .illegal (.badOperand arg) rest := by
  rw [decodeSendbit, if_neg (ne_of_two_le h).1, if_neg (ne_of_two_le h).2]

theorem decodeSwitchmode_bad {arg : Byte} (h : 0x02#8 ≤ arg) (rest : List Byte) :
    decodeSwitchmode arg rest = .illegal (.badOperand arg) rest := by
  rw [decodeSwitchmode, if_neg (ne_of_two_le h).1, if_neg (ne_of_two_le h).2]

/-- A set bit of the payload at or beyond the sequence's length is a set unused bit (R54, R57). -/
theorem decodeSendserial_bad {n j : Nat} {payload : List Byte} (hn : n ≤ j)
    (hset : (payload.flatMap bitsOf)[j]? = some true) (rest : List Byte) :
    decodeSendserial n payload rest = .illegal (.badPadding (payload.getLastD 0)) rest := by
  have hunused : ((payload.flatMap bitsOf).drop n)[j - n]? = some true := by
    rw [List.getElem?_drop, Nat.add_sub_cancel' hn, hset]
  rw [decodeSendserial, if_neg]
  intro hall
  simpa using List.all_eq_true.mp hall true (List.mem_of_getElem? hunused)

/-- Settles O4: a clause each from the operand's own lemma; a word that ends early from `decodeBlock_of_short`. -/
theorem illegalWordsRefused : Obligations.IllegalWordsRefused := by
  unfold Obligations.IllegalWordsRefused
  refine ⟨fun op rest h => decode_reserved h rest,
    fun arg rest h => ⟨decodeSendbit_bad h rest, decodeSwitchmode_bad h rest⟩,
    fun n payload rest j hlen hn hset => ?_, fun op h => ?_,
    fun n tail h => decodeBlock_of_short payloadSize h decodeSendserial,
    fun n tail h => decodeBlock_of_short (fun n => n) h (fun _ chars rest => .ok (.render chars) rest)⟩
  · exact (decodeBlock_of_bytes payloadSize hlen rest decodeSendserial).trans (decodeSendserial_bad hn hset rest)
  · simp only [List.mem_cons, List.not_mem_nil, or_false] at h
    obtain rfl | rfl | rfl | rfl | rfl | rfl := h <;> rfl

end Sys2Proof
end

section
/-! PROOF. What one line of a rule can do, whether its write is performed or fails (60_exceptions R112), the rule
that stops at the first failed write, and what holds of every command; obligations O33 and O40 to O42. -/

namespace Sys2Proof.Machine

/-! ### One line of a rule, however its write ends -/

/-- The line that a line of a rule writes. -/
def Act.target : Act → Option Line
  | .line l _ => some l
  | .latchPulse _ => some .le
  | .modeLevel _ => some .le
  | .hold _ => none
  | .saveSm => none
  | .restoreSm => some .oe
  | .saveSb => none
  | .restoreSb => some .oe

/-- A line of a rule is done, or its write fails. -/
theorem act_cases (a : Act) (s : State) :
    s.act a = s.quiet a ∨ ∃ l v b, a.target = some l ∧ s.act a = s.drawIo.raiseIoFailure l v b := by
  by_cases hw : a.writes = true
  · by_cases hio : s.ioAnswer = .ok
    · exact .inl (act_of_ok a hio)
    · obtain ⟨l, v, b, he, ha⟩ := act_of_fail hw hio
      refine .inr ⟨l, v, b, ?_, ha⟩
      cases a <;> simp_all [Act.events, Act.target]
  · exact .inl (act_of_no_write (by simpa using hw) s)

/-- What a line of a rule reads of the configuration it leaves. -/
@[simp] theorem act_config (a : Act) (s : State) : (s.act a).config = s.config := by
  obtain h | ⟨l, v, b, -, h⟩ := act_cases a s <;> rw [h]
  · exact (quiet_untouched s a).1
  · simp

/-- A line other than the written one keeps its level (R10), also when the write fails (R112). -/
theorem act_get_of_ne {a : Act} {k : Line} (h : a.target ≠ some k) (s : State) :
    (s.act a).lines.get k = s.lines.get k := by
  obtain hq | ⟨l, v, b, hl, hq⟩ := act_cases a s <;> rw [hq]
  · cases a <;> simp_all [State.quiet, Act.target, get_set, eq_comm]
  · have hkl : k ≠ l := by rintro rfl; exact h hl
    cases b <;> simp [get_set, hkl]

/-- `SAVE_SM` is written by its own line only (R16). -/
theorem act_saveSm {a : Act} (h : a ≠ .saveSm) (s : State) : (s.act a).saveSm = s.saveSm := by
  obtain hq | ⟨l, v, b, -, hq⟩ := act_cases a s <;> rw [hq]
  · cases a <;> simp_all [State.quiet]
  · simp

/-- `SAVE_SB` is written by its own line only (R16). -/
theorem act_saveSb {a : Act} (h : a ≠ .saveSb) (s : State) : (s.act a).saveSb = s.saveSb := by
  obtain hq | ⟨l, v, b, -, hq⟩ := act_cases a s <;> rw [hq]
  · cases a <;> simp_all [State.quiet]
  · simp

/-- What a line of a rule does to the chain: nothing, or the reaction to its one write, which is a LATCH pulse only
for a line of LATCH's pulse (R33, R37). -/
theorem act_chain_cases (a : Act) (s : State) :
    (s.act a).chain = s.chain ∨ ∃ p l v, a.target = some l ∧ (p = .latchPulse → a = .latchPulse v) ∧
      (s.act a).chain = s.chain.react s.config p s.lines l v := by
  obtain hq | ⟨l, v, b, -, hq⟩ := act_cases a s <;> rw [hq]
  · cases a with
    | hold w => exact .inl rfl
    | saveSm => exact .inl rfl
    | saveSb => exact .inl rfl
    | line l v => exact .inr ⟨.plain, l, v, rfl, by simp, by simp [State.quiet]⟩
    | latchPulse v => exact .inr ⟨.latchPulse, .le, v, rfl, by simp, by simp [State.quiet]⟩
    | modeLevel v => exact .inr ⟨.modeLevel, .le, v, rfl, by simp, by simp [State.quiet]⟩
    | restoreSm => exact .inr ⟨.plain, .oe, s.saveSm, rfl, by simp, by simp [State.quiet]⟩
    | restoreSb => exact .inr ⟨.plain, .oe, s.saveSb, rfl, by simp, by simp [State.quiet]⟩
  · exact .inl (by simp)

/-- With IO_CAN_FAIL = 0 no answer of the collaborator is drawn (R7). -/
theorem act_io {s : State} (h : s.config.ioCanFail = false) (a : Act) : (s.act a).io = s.io := by
  obtain hq | ⟨l, v, b, -, hq⟩ := act_cases a s <;> rw [hq]
  · cases a <;> simp [State.quiet, h]
  · simp [h]

/-! ### Lines of a rule in order -/

theorem perform_config (as : List Act) (s : State) : (perform as s).config = s.config :=
  perform_induct (P := fun u => u.config = s.config) as (fun a _ u _ hu => (act_config a u).trans hu) rfl

/-- A rule is done, or it ends in `IOFailure`. -/
theorem perform_quiet_or_fatal (as : List Act) {s : State} (hf : s.fatal = false) :
    perform as s = s.quietAll as ∨ (perform as s).fatal = true := by
  rcases ok_or_first_fail s (writeCount as) with h | ⟨n, hn, hok, hbad⟩
  · exact .inl (perform_of_ok as hf h)
  · obtain ⟨done, l, v, b, rest, -, -, -, h⟩ := perform_of_fail as hf hn hok hbad
    exact .inr (by rw [h, raiseIoFailure_fatal])

/-- The lines before a failed write are a first part of the rule, and they are done (R112 (2)). -/
theorem perform_of_fail_split (as : List Act) {s : State} {n : Nat} (hf : s.fatal = false)
    (hn : n < writeCount as) (hok : ∀ k < n, s.ioAnswerAt k = .ok) (hbad : s.ioAnswerAt n ≠ .ok) :
    ∃ done rest l v b, as = done ++ rest ∧ perform done s = s.quietAll done ∧
      perform as s = (perform done s).drawIo.raiseIoFailure l v b := by
  obtain ⟨done, l, v, b, rest, hsplit, hevents, -, hfail⟩ := perform_of_fail as hf hn hok hbad
  have hbefore : writeCount done ≤ n := by
    rw [← writesIn_eventsOf done s, hevents]
    exact writesIn_beforeWrite_le n _
  have hdone : perform done s = s.quietAll done := perform_of_ok done hf fun k hk => hok k (by omega)
  exact ⟨done, rest, l, v, b, hsplit, hdone, by rw [hdone]; exact hfail⟩

/-- Settles O42: no write fails and the first part is all of the rule, or one does and `perform_of_fail_split`
gives the part before it. -/
theorem ruleStopsAtFailedWrite : Obligations.RuleStopsAtFailedWrite := by
  unfold Obligations.RuleStopsAtFailedWrite
  intro script s hf
  rcases ok_or_first_fail s (writeCount script) with h | ⟨n, hn, hok, hbad⟩
  · have hdone : (perform script s).fatal = false := by rw [perform_of_ok script hf h, quietAll_fatal, hf]
    exact ⟨script, [], (List.append_nil _).symm, hdone, .inl ⟨rfl, hdone⟩⟩
  · obtain ⟨done, rest, l, v, b, hsplit, hdone, hfail⟩ := perform_of_fail_split script hf hn hok hbad
    refine ⟨done, rest, hsplit, by rw [hdone, quietAll_fatal, hf], .inr ?_⟩
    have hguard : (perform done s).guard = s.guard := by rw [hdone, quietAll_guard]
    rw [hfail]
    refine ⟨rfl, by simp, by simp, by simpa using hguard, l, v, rfl, ?_⟩
    cases b with
    | false => exact .inl (by simp)
    | true => exact .inr (by simp)

/-! ### A command under the guard -/

/-- What the lines of a script and GUARD and `CP` do not touch the command does not touch. -/
theorem underGuard_keeps {α : Type} (f : State → α) {script : List Act}
    (hact : ∀ a ∈ script, ∀ u, f (State.act a u) = f u) (hguard : ∀ u b, f { u with guard := b } = f u)
    (hadv : ∀ u, f (State.advance u) = f u) (s : State) : f (s.underGuard script) = f s :=
  underGuard_induct (P := fun u => f u = f s) script (fun a ha u _ hu => (hact a ha u).trans hu)
    (fun u b hu => (hguard u b).trans hu) (fun u hu => (hadv u).trans hu) rfl

/-- With IO_CAN_FAIL = 0 a command draws no answer of the collaborator. -/
theorem underGuard_io {s : State} (h : s.config.ioCanFail = false) (script : List Act) :
    (s.underGuard script).io = s.io := by
  refine (underGuard_induct (P := fun u => u.config.ioCanFail = false ∧ u.io = s.io) script ?_ ?_ ?_ ⟨h, rfl⟩).2
  · rintro a - u - ⟨hu, hio⟩
    exact ⟨by rw [act_config, hu], by rw [act_io hu, hio]⟩
  · exact fun u b hu => hu
  · rintro u ⟨hu, hio⟩
    exact ⟨by rw [advance_config, hu], by rw [advance_io, hio]⟩

/-- The one next state of a command that takes the guard. -/
theorem eq_underGuard_of_exec {i : Instr} (hi : needsGuard i = true) {s t : State} (h : exec i s = .next t) :
    t = s.underGuard (commandScript s.config i) := by
  rw [exec_underGuard hi] at h
  injection h with h
  exact h.symm

/-! ### Every command -/

/-- A command that needs no guard is ENCODE, which answers its issuer and appends nothing (R70). -/
theorem exec_of_no_guard {i : Instr} (hi : needsGuard i = false) {s t : State} (h : exec i s = .next t) :
    commandEvents s.config s.lines.oe i = [] ∧ ∃ x, t = s.answer x := by
  cases i with
  | encode ch =>
    rw [exec_encode] at h
    injection h with h
    exact ⟨rfl, _, h.symm⟩
  | _ => exact nomatch hi

/-- Everything a command can do: it answers (ENCODE), waits, runs to its end, or ends in `IOFailure`. -/
theorem exec_outcome {i : Instr} {s t : State} (h : exec i s = .next t) :
    (needsGuard i = false ∧ commandEvents s.config s.lines.oe i = [] ∧ ∃ x, t = s.answer x) ∨
    (needsGuard i = true ∧ s.canStart = false ∧ t = s) ∨
    (s.RunsThrough (commandEvents s.config s.lines.oe i) ∧
      s.Completed t (commandEvents s.config s.lines.oe i)) ∨
    ∃ n, s.FailsAt n (commandEvents s.config s.lines.oe i) ∧
      s.IoFailed t n (commandEvents s.config s.lines.oe i) := by
  cases hi : needsGuard i with
  | false => exact .inl ⟨rfl, exec_of_no_guard hi h⟩
  | true => exact .inr ((exec_cases hi h).imp_left fun hwait => ⟨rfl, hwait⟩)

/-- A completed command moves its issuer's `CP` by one and no other part of a requester's record (R20). -/
theorem port_of_issuerAdvanced {s t : State} (h : s.IssuerAdvanced t) :
    t.port s.issuer = { s.port s.issuer with cp := (s.port s.issuer).cp + 1 } ∧
    ∀ r, r ≠ s.issuer → t.port r = s.port r := by
  obtain ⟨-, ha, hb⟩ := h
  cases hs : s.issuer <;> simp only [hs, reduceCtorEq, if_true, if_false] at ha hb
  · exact ⟨ha, fun r hr => by cases r with | a => exact absurd rfl hr | b => exact hb⟩
  · exact ⟨hb, fun r hr => by cases r with | a => exact ha | b => exact absurd rfl hr⟩

theorem port_of_ports_eq {s t : State} (ha : t.portA = s.portA) (hb : t.portB = s.portB) (r : Requester) :
    t.port r = s.port r := by cases r <;> assumption

/-- What a command does to the requesters' records: its issuer's `CP` moves by one or not at all, only ENCODE adds
an answer, and the other record stays (R20, R59). -/
theorem exec_ports {i : Instr} {s t : State} (h : exec i s = .next t) :
    t.issuer = s.issuer ∧ (t.port s.issuer).commands = (s.port s.issuer).commands ∧
    (∀ r, r ≠ s.issuer → t.port r = s.port r) ∧
    (needsGuard i = true → (t.port s.issuer).answers = (s.port s.issuer).answers) ∧
    ((t.port s.issuer).cp = (s.port s.issuer).cp ∨
      t.fatal = s.fatal ∧ (t.port s.issuer).cp = (s.port s.issuer).cp + 1) := by
  obtain ⟨hi, -, x, rfl⟩ | ⟨-, -, rfl⟩ | ⟨⟨-, hf, -⟩, -, -, -, htf, -, hadv, -⟩ |
    ⟨n, -, -, -, -, -, ha, hb, hissuer, -⟩ := exec_outcome h
  · have hport := answer_port_issuer x s
    exact ⟨by simp, by rw [hport], fun r => answer_port_of_ne x, by simp [hi], .inr ⟨by simp, by rw [hport]⟩⟩
  · exact ⟨rfl, rfl, fun _ _ => rfl, fun _ => rfl, .inl rfl⟩
  · obtain ⟨hport, hother⟩ := port_of_issuerAdvanced hadv
    exact ⟨hadv.1, by rw [hport], hother, fun _ => by rw [hport], .inr ⟨by rw [htf, hf], by rw [hport]⟩⟩
  · have hport := port_of_ports_eq ha hb
    exact ⟨hissuer, by rw [hport], fun r _ => hport r, fun _ => by rw [hport], .inl (by rw [hport])⟩

/-- No command changes the configuration or uses up a choice between requesters. -/
theorem exec_config_turns {i : Instr} {s t : State} (h : exec i s = .next t) :
    t.config = s.config ∧ t.turns = s.turns := by
  obtain ⟨-, -, x, rfl⟩ | ⟨-, -, rfl⟩ | ⟨-, -, -, -, -, -, -, hc, ht⟩ | ⟨n, -, -, -, -, -, -, -, -, hc, ht⟩ :=
    exec_outcome h
  · exact ⟨answer_config x s, answer_turns x s⟩
  · exact ⟨rfl, rfl⟩
  · exact ⟨hc, ht⟩
  · exact ⟨hc, ht⟩

theorem exec_io {i : Instr} {s t : State} (hio : s.config.ioCanFail = false) (h : exec i s = .next t) :
    t.io = s.io := by
  cases hi : needsGuard i with
  | false =>
    obtain ⟨-, x, rfl⟩ := exec_of_no_guard hi h
    exact answer_io x s
  | true => rw [eq_underGuard_of_exec hi h, underGuard_io hio]

/-- Settles O33: `exec_config_turns`, `exec_ports` and `exec_io`. -/
theorem commandFrame : Obligations.CommandFrame := by
  unfold Obligations.CommandFrame
  intro i s t h
  obtain ⟨hconfig, hturns⟩ := exec_config_turns h
  obtain ⟨hissuer, hcommands, hother, hanswers, hcp⟩ := exec_ports h
  refine ⟨hconfig, hissuer, hturns, fun r => ?_, hother, hanswers, hcp.imp_right And.right, fun hio => exec_io hio h⟩
  by_cases hr : r = s.issuer
  · rw [hr, hcommands]
  · rw [hother r hr]

/-- Settles O40: such a state is none in which a command can start. -/
theorem commandWaits : Obligations.CommandWaits := by
  unfold Obligations.CommandWaits
  intro i s hi hbusy
  have hwait : s.canStart = false := by rcases hbusy with h | h <;> simp [State.canStart, h]
  rw [exec_underGuard hi, underGuard_waits hwait]

/-- Settles O41: `exec_of_fails`; the event code is that of FATAL = 1. -/
theorem ioFailureEntry : Obligations.IoFailureEntry := by
  unfold Obligations.IoFailureEntry
  intro i s n hi hfail
  obtain ⟨t, ht, hfailed⟩ := exec_of_fails hi hfail
  have ⟨hfatal, _⟩ := hfailed
  exact ⟨t, ht, hfailed, if_pos hfatal⟩

end Sys2Proof.Machine
end

section
/-! PROOF. The step (20_memory section 5, 60_exceptions sections 1 and 3): which requester it serves, what a refused
word changes, how the command pointers move; obligations O45 to O48, O50 and O54. -/

namespace Sys2Proof.Machine

/-! ### A command is run -/

/-- There is no command in an empty sequence. -/
theorem ne_nil_of_decode_ok {bytes : List Byte} {i : Instr} {rest : List Byte} (h : decode bytes = .ok i rest) :
    bytes ≠ [] := by
  rintro rfl
  cases h

/-- Serving a requester whose word is a command is running it with that requester as its issuer, and one command
further on its list stand the bytes after it (R20). -/
theorem serve_of_ok {s : State} {r : Requester} {i : Instr} {rest : List Byte}
    (h : decode (s.pending r) = .ok i rest) :
    s.serve r = .command i { s with issuer := r } ∧ bytesFrom ((s.port r).cp + 1) (s.port r).commands = rest := by
  refine ⟨by rw [State.serve, h], ?_⟩
  rw [bytesFrom_succ _ (ne_nil_of_decode_ok h)]
  exact congrArg Decoded.rest h

/-- Settles O46: the requester is the only one that can be served. -/
theorem stepRunsCommand : Obligations.StepRunsCommand := by
  unfold Obligations.StepRunsCommand
  intro s r i rest h hstarts hother
  obtain ⟨hserve, hrest⟩ := serve_of_ok h
  have hready : s.ready r = true := by rw [ready_of_ok h, hstarts]
  refine ⟨?_, hrest⟩
  rw [step, fetch_of_only hready hother, hserve]

/-! ### A word is refused -/

/-- The state after a refused word (R113): the requester's verdict, whatever the choices left. -/
def State.refuse (s : State) (r : Requester) (turns : Draws Requester) (reason : Illegal) : State :=
  { s with issuer := r, turns := turns }.answer (.invalid reason)

theorem serve_of_illegal {s : State} {r : Requester} {reason : Illegal} {rest : List Byte}
    (h : decode (s.pending r) = .illegal reason rest) : s.serve r = .refusedWord (s.refuse r s.turns reason) := by
  rw [State.serve, h]
  rfl

/-- A run in which a requester got a verdict does not count as clean (R113). -/
theorem not_ranCleanly_of_refusal {t : State} {r : Requester} {reason : Illegal}
    (h : .invalid reason ∈ (t.port r).answers) : ¬ t.RanCleanly := by
  rintro ⟨-, ha, hb⟩
  cases r with
  | a => exact absurd (List.all_eq_true.mp ha _ h) (by simp [Answer.isRefusal])
  | b => exact absurd (List.all_eq_true.mp hb _ h) (by simp [Answer.isRefusal])

/-- A refused word only answers: block and chain, the other record and the free values stay (R113). -/
theorem refuse_only_answers (s : State) (r : Requester) (turns : Draws Requester) (reason : Illegal) :
    s.SameBlock (s.refuse r turns reason) ∧
    (s.refuse r turns reason).port r = { s.port r with
      cp := (s.port r).cp + 1
      answers := (s.port r).answers ++ [.invalid reason] } ∧
    (∀ q, q ≠ r → (s.refuse r turns reason).port q = s.port q) ∧
    (s.refuse r turns reason).config = s.config ∧ (s.refuse r turns reason).io = s.io ∧
    (s.refuse r turns reason).turns = turns ∧ (s.refuse r turns reason).issuer = r ∧
    ¬ (s.refuse r turns reason).RanCleanly := by
  have hport : (s.refuse r turns reason).port r = { s.port r with
      cp := (s.port r).cp + 1
      answers := (s.port r).answers ++ [.invalid reason] } := by
    cases r <;> exact answer_port_issuer (.invalid reason) _
  have hother : ∀ q, q ≠ r → (s.refuse r turns reason).port q = s.port q := by
    intro q hq
    refine (answer_port_of_ne _ hq).trans ?_
    cases q <;> rfl
  have hverdict : .invalid reason ∈ ((s.refuse r turns reason).port r).answers := by simp [hport]
  exact ⟨answer_sameBlock _ { s with issuer := r, turns := turns }, hport, hother, answer_config _ _,
    answer_io _ _, answer_turns _ _, answer_issuer _ _, not_ranCleanly_of_refusal hverdict⟩

/-- Settles O45: the requester is the only one that can be served, and `refuse_only_answers`. -/
theorem refusedWordOnlyAnswers : Obligations.RefusedWordOnlyAnswers := by
  unfold Obligations.RefusedWordOnlyAnswers
  intro s r reason rest hpending h hother
  refine ⟨s.refuse r s.turns reason, ?_, refuse_only_answers s r s.turns reason⟩
  rw [step, fetch_of_only (ready_of_illegal hpending h) hother, serve_of_illegal h]

/-! ### Both requesters, or none -/

theorem fetch_of_both {s : State} (ha : s.ready .a = true) (hb : s.ready .b = true) :
    s.fetch = { s with turns := s.turns.next }.serve (s.turns.peek Config.freeTurn) := by
  simp [State.fetch, ha, hb]

/-- The bytes at a pointer do not depend on the choices between requesters. -/
theorem pending_of_turns (s : State) (turns : Draws Requester) (r : Requester) :
    { s with turns := turns }.pending r = s.pending r := by cases r <;> rfl

/-- Settles O47: the chosen requester's word is run (`serve_of_ok`) or refused (`refuse_only_answers`). -/
theorem stepServesChosenRequester : Obligations.StepServesChosenRequester := by
  unfold Obligations.StepServesChosenRequester
  intro s r ha hb hchoice
  have hfetch := fetch_of_both ha hb
  rw [hchoice] at hfetch
  refine ⟨fun i rest h => ?_, fun reason rest h => ?_⟩
  · rw [← pending_of_turns s s.turns.next] at h
    rw [step, hfetch, (serve_of_ok h).1]
  · rw [← pending_of_turns s s.turns.next] at h
    refine ⟨s.refuse r s.turns.next reason, ?_, refuse_only_answers s r s.turns.next reason⟩
    rw [step, hfetch, serve_of_illegal h]
    rfl

/-- Settles O48: every kind of fetch answers, and with nothing to serve the answer is the state itself. -/
theorem stepAlwaysAnswers : Obligations.StepAlwaysAnswers := by
  unfold Obligations.StepAlwaysAnswers
  intro s
  constructor
  · unfold step
    cases s.fetch with
    | nothing => exact ⟨s, rfl⟩
    | command i t => exact exec_answers i t
    | refusedWord t => exact ⟨t, rfl⟩
  · intro ha hb
    have hfetch : s.fetch = .nothing := by simp [State.fetch, ha, hb]
    rw [step, hfetch]

/-! ### The command pointers -/

/-- What a step does to the requesters' records: nothing; or one of them, that of a requester with a word at its
pointer, moves its `CP` by one or, when the step ends in `IOFailure`, not at all (R20, R112). -/
theorem step_ports {s t : State} (h : step s = .next t) :
    t = s ∨ ∃ r, s.pending r ≠ [] ∧ (t.port r).commands = (s.port r).commands ∧
      (∀ q, q ≠ r → t.port q = s.port q) ∧
      ((t.port r).cp = (s.port r).cp ∨ t.fatal = s.fatal ∧ (t.port r).cp = (s.port r).cp + 1) := by
  obtain ⟨-, -, rfl⟩ | ⟨r, hready, ⟨i, rest, -, -, hexec⟩ | ⟨reason, rest, -, rfl⟩⟩ := step_cases h
  · exact .inl rfl
  · obtain ⟨-, hcommands, hother, -, hcp⟩ := exec_ports hexec
    have hserved : ∀ q, (s.servedBy r).port q = s.port q := fun q => by cases q <;> rfl
    simp only [hserved] at hcommands hother hcp
    exact .inr ⟨r, pending_of_ready hready, hcommands, hother, hcp⟩
  · obtain ⟨⟨-, -, hfatal, -⟩, hport, hother, -⟩ := refuse_only_answers s r s.turnsAfter reason
    have hcommands := congrArg Port.commands hport
    have hcp := congrArg Port.cp hport
    exact .inr ⟨r, pending_of_ready hready, hcommands, hother, .inr ⟨hfatal, hcp⟩⟩

/-- Settles O50: `step_ports`, for either requester. -/
theorem commandPointerMovesByOne : Obligations.CommandPointerMovesByOne := by
  unfold Obligations.CommandPointerMovesByOne
  intro s t h
  obtain rfl | ⟨r, -, hcommands, hother, hcp⟩ := step_ports h
  · exact ⟨rfl, rfl, .inl ⟨rfl, rfl⟩, fun _ _ => ⟨rfl, rfl⟩⟩
  · have hfailed : s.fatal = false → t.fatal = true → (t.port r).cp = (s.port r).cp := by
      intro hs ht
      obtain hcp | ⟨hfatal, -⟩ := hcp
      · exact hcp
      · rw [hs, ht] at hfatal; cases hfatal
    replace hcp := hcp.imp_right And.right
    cases r with
    | a =>
      have hb : t.portB = s.portB := hother .b (by decide)
      rw [hb]
      exact ⟨hcommands, rfl, hcp.imp (⟨·, rfl⟩) fun h => .inl ⟨h, rfl⟩, fun hs ht => ⟨hfailed hs ht, rfl⟩⟩
    | b =>
      have ha : t.portA = s.portA := hother .a (by decide)
      rw [ha]
      exact ⟨rfl, hcommands, hcp.imp (⟨rfl, ·⟩) fun h => .inr ⟨rfl, h⟩, fun hs ht => ⟨rfl, hfailed hs ht⟩⟩

/-- A step keeps a legal `CP`: it moves past a word that is there (`lt_commandCount`). -/
theorem step_cpLegal {s t : State} (h : step s = .next t) (q : Requester) (hq : (s.port q).CpLegal) :
    (t.port q).CpLegal := by
  obtain rfl | ⟨r, hpending, hcommands, hother, hcp⟩ := step_ports h
  · exact hq
  · by_cases hr : q = r
    · subst hr
      have hroom : (s.port q).cp < commandCount (s.port q).commands.length (s.port q).commands :=
        lt_commandCount (Nat.le_refl _) hpending
      unfold Port.CpLegal at hq ⊢
      rw [hcommands]
      omega
    · rw [hother q hr]
      exact hq

/-- Settles O54: `step_cpLegal` for both requesters. -/
theorem commandPointersStayLegal : Obligations.CommandPointersStayLegal := by
  unfold Obligations.CommandPointersStayLegal
  exact fun s t ha hb h => ⟨step_cpLegal h .a ha, step_cpLegal h .b hb⟩

end Sys2Proof.Machine
end

section
/-! PROOF. What every step keeps (10_state sections 2 and 5, 20_memory sections 2 and 5, 60_exceptions sections 1
and 4): GUARD and FATAL, the frozen machine, the growth of the trace, the chain's size; obligations O43, O44, O49,
O52, O53 and O56. -/

namespace Sys2Proof.Machine

/-! ### The status bits -/

/-- With IO_CAN_FAIL = 0 no write of a command fails. -/
theorem exec_fatal_of_not_ioCanFail {i : Instr} {s t : State} (hio : s.config.ioCanFail = false)
    (hf : s.fatal = false) (h : exec i s = .next t) : t.fatal = false := by
  obtain ⟨-, -, x, rfl⟩ | ⟨-, -, rfl⟩ | ⟨-, -, -, -, htf, -⟩ | ⟨n, ⟨-, -, -, -, hbad⟩, -⟩ := exec_outcome h
  · rw [answer_fatal, hf]
  · exact hf
  · exact htf
  · exact absurd (by simp [State.ioAnswerAt, hio]) hbad

/-- Settles O43: no command's write fails, and nothing else sets FATAL. -/
theorem noFailureWithoutIoCanFail : Obligations.NoFailureWithoutIoCanFail := by
  unfold Obligations.NoFailureWithoutIoCanFail
  intro s t hio hf h
  refine step_induct (P := fun u => u.config.ioCanFail = false ∧ u.fatal = false) ?_ ?_ ?_ ⟨hio, hf⟩ h
  · exact fun u r hu => hu
  · rintro u x ⟨huio, huf⟩
    exact ⟨by rw [answer_config, huio], by rw [answer_fatal, huf]⟩
  · rintro i u v ⟨huio, huf⟩ hexec
    exact ⟨by rw [(exec_config_turns hexec).1, huio], exec_fatal_of_not_ioCanFail huio huf hexec⟩

/-- A completed command leaves both bits 0, a failed one both 1 (R12, R13, R112). -/
theorem exec_guardIsFatal {i : Instr} {s t : State} (hs : s.GuardIsFatal) (h : exec i s = .next t) :
    t.GuardIsFatal := by
  obtain ⟨-, -, x, rfl⟩ | ⟨-, -, rfl⟩ | ⟨-, -, -, hg, hf, -⟩ | ⟨n, -, hf, hg, -⟩ := exec_outcome h
  · exact (answer_guard x s).trans (hs.trans (answer_fatal x s).symm)
  · exact hs
  · exact hg.trans hf.symm
  · exact hg.trans hf.symm

/-- Settles O52: `exec_guardIsFatal`; an answer touches neither bit. -/
theorem guardIsFatalKept : Obligations.GuardIsFatalKept := by
  unfold Obligations.GuardIsFatalKept
  exact fun s t hs h => step_induct (P := State.GuardIsFatal) (fun u r hu => hu)
    (fun u x hu => (answer_guard x u).trans (hu.trans (answer_fatal x u).symm))
    (fun i u v hu hexec => exec_guardIsFatal hu hexec) hs h

/-! ### Frozen under FATAL = 1 -/

theorem sameBlock_refl (s : State) : s.SameBlock s := ⟨rfl, rfl, rfl, rfl, rfl, rfl, rfl, rfl⟩

theorem sameBlock_trans {s t u : State} (h : s.SameBlock t) (h' : t.SameBlock u) : s.SameBlock u := by
  obtain ⟨h1, h2, h3, h4, h5, h6, h7, h8⟩ := h
  obtain ⟨k1, k2, k3, k4, k5, k6, k7, k8⟩ := h'
  exact ⟨k1.trans h1, k2.trans h2, k3.trans h3, k4.trans h4, k5.trans h5, k6.trans h6, k7.trans h7, k8.trans h8⟩

/-- Under FATAL = 1 a command waits or, ENCODE, only answers (R42, R70). -/
theorem exec_frozen {i : Instr} {s t : State} (hf : s.fatal = true) (h : exec i s = .next t) :
    s.SameBlock t := by
  obtain ⟨-, -, x, rfl⟩ | ⟨-, -, rfl⟩ | ⟨⟨-, hf', -⟩, -⟩ | ⟨n, ⟨-, hf', -⟩, -⟩ := exec_outcome h
  · exact answer_sameBlock x s
  · exact sameBlock_refl _
  · rw [hf] at hf'; cases hf'
  · rw [hf] at hf'; cases hf'

/-- Settles O44: nothing a step is made of changes the block, and FATAL = 1 shuts out the end of the run. -/
theorem fatalFreezes : Obligations.FatalFreezes := by
  unfold Obligations.FatalFreezes
  intro s t hf h
  have hblock : s.SameBlock t := by
    refine step_induct (P := s.SameBlock) (fun u r hu => hu) ?_ ?_ (sameBlock_refl s) h
    · exact fun u x hu => sameBlock_trans hu (answer_sameBlock x u)
    · intro i u v hu hexec
      have ⟨_, _, huf, _⟩ := hu
      exact sameBlock_trans hu (exec_frozen (huf.trans hf) hexec)
  have ⟨_, _, htf, _⟩ := hblock
  refine ⟨hblock, ?_⟩
  rintro ⟨-, -, -, hfinal⟩
  rw [htf, hf] at hfinal
  cases hfinal

/-! ### The trace -/

/-- What a command appends to the trace (R8, R112 (2)): a first part of its events, which lead to the lines unless
it failed; all of them when it started and did not fail. -/
theorem exec_appends {i : Instr} {s t : State} (h : exec i s = .next t) :
    ∃ evs, evs <+: commandEvents s.config s.lines.oe i ∧ t.trace = s.trace ++ evs ∧
      (t.fatal = false → t.lines = replay s.lines evs) ∧
      (s.starts i = true → t.fatal = false → evs = commandEvents s.config s.lines.oe i) := by
  obtain ⟨-, hnone, x, rfl⟩ | ⟨hguard, hwait, rfl⟩ | ⟨-, htrace, hlines, -⟩ | ⟨n, -, hfatal, -, htrace, -⟩ :=
    exec_outcome h
  · exact ⟨[], List.nil_prefix, by simp, fun _ => answer_lines x s, fun _ _ => hnone.symm⟩
  · exact ⟨[], List.nil_prefix, by simp, fun _ => rfl, by simp [State.starts, hguard, hwait]⟩
  · exact ⟨_, List.prefix_refl _, htrace, fun _ => hlines, fun _ _ => rfl⟩
  · exact ⟨_, beforeWrite_prefix n _, htrace, by simp [hfatal], by simp [hfatal]⟩

/-- Settles O49: a served command appends what `exec_appends` says; a refused word and an idle step nothing. -/
theorem traceGrowsByOneCommand : Obligations.TraceGrowsByOneCommand := by
  unfold Obligations.TraceGrowsByOneCommand
  intro s t h
  obtain ⟨-, -, rfl⟩ | ⟨r, -, ⟨i, rest, hdecode, hstarts, hexec⟩ | ⟨reason, rest, -, rfl⟩⟩ := step_cases h
  · exact ⟨[], (List.append_nil _).symm, .inl rfl⟩
  · obtain ⟨evs, hprefix, htrace, -, hall⟩ := exec_appends hexec
    exact ⟨evs, htrace, .inr ⟨r, i, rest, hdecode, hprefix, hall hstarts⟩⟩
  · exact ⟨[], by simp, .inl rfl⟩

/-! ### The chain's size -/

/-- A line of a rule keeps the size of the chain (R31). -/
theorem act_chainSized (a : Act) {s : State} (h : s.ChainSized) : (s.act a).ChainSized := by
  unfold State.ChainSized at h ⊢
  rw [act_config]
  obtain hc | ⟨p, l, v, -, -, hc⟩ := act_chain_cases a s <;> rw [hc]
  · exact h
  · exact react_sized s.config p s.lines l v h

theorem answer_chainSized (x : Answer) {s : State} (h : s.ChainSized) : (s.answer x).ChainSized := by
  simpa [State.ChainSized] using h

theorem exec_chainSized {i : Instr} {s t : State} (hs : s.ChainSized) (h : exec i s = .next t) :
    t.ChainSized := by
  cases hi : needsGuard i with
  | false =>
    obtain ⟨-, x, rfl⟩ := exec_of_no_guard hi h
    exact answer_chainSized x hs
  | true =>
    rw [eq_underGuard_of_exec hi h]
    refine underGuard_induct (P := State.ChainSized) _ (fun a _ u _ hu => act_chainSized a hu) ?_ ?_ hs
    · exact fun u b hu => hu
    · exact fun u hu => by simpa [State.ChainSized] using hu

/-- Settles O53: no line of any rule changes the size of the chain or the configuration. -/
theorem chainSizeKept : Obligations.ChainSizeKept := by
  unfold Obligations.ChainSizeKept
  intro s t hs h
  obtain ⟨hsized, hconfig⟩ : t.ChainSized ∧ t.config = s.config := by
    refine step_induct (P := fun u => u.ChainSized ∧ u.config = s.config) ?_ ?_ ?_ ⟨hs, rfl⟩ h
    · exact fun u r hu => hu
    · rintro u x ⟨hu, hc⟩
      exact ⟨answer_chainSized x hu, by rw [answer_config, hc]⟩
    · rintro i u v ⟨hu, hc⟩ hexec
      exact ⟨exec_chainSized hu hexec, by rw [(exec_config_turns hexec).1, hc]⟩
  exact ⟨hsized, hconfig, eight_le_stage_of_chainSized hsized⟩

/-! ### Reset -/

/-- The chain at power-up has its size whatever its bits are (R31, R38). -/
theorem powerUpChain_sized (c : Config) : (State.resetWith c).ChainSized := by
  simp [State.ChainSized, State.resetWith]

/-- The recogniser has taken no sample at power-up (log 8). -/
theorem resetWith_lastSampleLow (c : Config) : (State.resetWith c).LastSampleLow := by
  intro _ x hx
  cases hx

/-- Settles O56: the lines at reset are low (`reset_lines`), no bit is set and no list has a command. -/
theorem invariantsAtReset : Obligations.InvariantsAtReset := by
  unfold Obligations.InvariantsAtReset
  exact ⟨fun _ => by rw [reset_lines]; exact ⟨rfl, rfl⟩, resetWith_lastSampleLow defaultConfig, rfl,
    powerUpChain_sized defaultConfig, Nat.zero_le _, Nat.zero_le _⟩

end Sys2Proof.Machine
end

section
/-! PROOF. The idle levels (41_serial_transport section 6, R90): which scripts come back to CLK = 0, LE = 0 and a low
last sample, and why no traffic with LE = 0 at its pulses enters Special mode; obligations O51 and O55. -/

namespace Sys2Proof.Machine

/-! ### Scripts that come back to idle levels -/

/-- CLK and LE are 0, and the recogniser's newest sample was taken with LE = 0 (R90). -/
def State.Idle (s : State) : Prop :=
  s.lines.clk = false ∧ s.lines.le = false ∧ ∀ x ∈ s.chain.samples.head?, x.2 = false

/-- A script that leads from idle levels to idle levels when no write fails. -/
def KeepsIdle (script : List Act) : Prop := ∀ s : State, s.Idle → (s.quietAll script).Idle

theorem keepsIdle_nil : KeepsIdle [] := fun _ h => h

theorem keepsIdle_append {xs ys : List Act} (hx : KeepsIdle xs) (hy : KeepsIdle ys) : KeepsIdle (xs ++ ys) := by
  intro s h
  rw [quietAll_append]
  exact hy _ (hx s h)

/-- The pulse of a SENDBIT samples the LE of the idle levels. -/
theorem keepsIdle_sendBit (bit : Level) : KeepsIdle (sendBitScript bit) := by
  rintro s ⟨hclk, hle, -⟩
  obtain ⟨hlines, hchain⟩ := quietAll_sendBit bit s
  rw [hclk, if_neg Bool.false_ne_true] at hchain
  unfold State.Idle
  rw [hlines, hchain]
  exact ⟨rfl, hle, by simp [Chain.clockRise, hle]⟩

theorem keepsIdle_sendSerial (bits : List Level) : KeepsIdle (sendSerialScript bits) := by
  induction bits with
  | nil => exact keepsIdle_nil
  | cons b bs ih => exact keepsIdle_append ih (keepsIdle_sendBit b)

theorem commit_samples (ch : Chain) : ch.commit.samples = ch.samples := by
  unfold Chain.commit
  split <;> rfl

/-- LATCH raises LE between two pulses, not at one. -/
theorem keepsIdle_latch : KeepsIdle latchScript := by
  rintro s ⟨hclk, hle, hlow⟩
  obtain ⟨hlines, hchain, -⟩ := quietAll_latch s
  rw [hle, if_neg Bool.false_ne_true] at hchain
  unfold State.Idle
  rw [hlines, hchain, commit_samples]
  exact ⟨hclk, rfl, hlow⟩

/-- The pulse after SWITCHMODE's pulse 4 samples LE = 0. -/
theorem keepsIdle_switchMode (special : Level) (m : ChainMode) : KeepsIdle (switchModeScript special m) := by
  rintro s ⟨hclk, -, -⟩
  obtain ⟨hlines, -⟩ := quietAll_switchMode special m s
  refine ⟨by rw [hlines], by rw [hlines], ?_⟩
  cases hl : levelFor special m <;>
    simp [switchModeScript, pulseClock, State.quiet, Chain.react, hclk, Chain.clockRise, Lines.set, hl]

theorem keepsIdle_writeOe (v : Level) : KeepsIdle [.line .oe v] := by
  intro s h
  obtain ⟨hlines, hchain⟩ := quietAll_writeOe v s
  unfold State.Idle
  rwa [hlines, hchain]

theorem keepsIdle_saveSb : KeepsIdle [.saveSb] := fun _ h => h

/-- Restoring OE is a write of OE. -/
theorem keepsIdle_restoreSb : KeepsIdle [.restoreSb] := fun s => keepsIdle_writeOe s.saveSb s

theorem keepsIdle_setBrightness (special : Level) (code : Byte) :
    KeepsIdle (setBrightnessScript special code) := by
  rw [setBrightnessScript, repeat_sendSerial]
  exact keepsIdle_append (keepsIdle_append (keepsIdle_append (keepsIdle_append
    (keepsIdle_append keepsIdle_saveSb (keepsIdle_switchMode special .special)) (keepsIdle_sendSerial _))
    keepsIdle_latch) keepsIdle_restoreSb) (keepsIdle_switchMode special .normal)

theorem keepsIdle_command (c : Config) (i : Instr) : KeepsIdle (commandScript c i) := by
  cases i with
  | encode ch => exact keepsIdle_nil
  | sendbit bit => exact keepsIdle_sendBit bit
  | sendserial bits => exact keepsIdle_sendSerial bits
  | latch => exact keepsIdle_latch
  | switchmode m => exact keepsIdle_switchMode _ m
  | setbrightness code => exact keepsIdle_setBrightness _ code
  | render text =>
    rw [commandScript, renderScript, renderShift_eq]
    exact keepsIdle_append (keepsIdle_sendSerial _) keepsIdle_latch
  | enable => exact keepsIdle_writeOe false
  | disable => exact keepsIdle_writeOe true

/-! ### The step -/

/-- The two invariants of R90 together: idle while FATAL = 0. -/
theorem idle_iff (s : State) : s.IdleLevels ∧ s.LastSampleLow ↔ (s.fatal = false → s.Idle) :=
  ⟨fun ⟨hlevels, hlow⟩ hf => have ⟨hclk, hle⟩ := hlevels hf; ⟨hclk, hle, hlow hf⟩,
    fun h => ⟨fun hf => have ⟨hclk, hle, _⟩ := h hf; ⟨hclk, hle⟩, fun hf => have ⟨_, _, hlow⟩ := h hf; hlow⟩⟩

/-- A command from idle levels that does not fail comes back to them. -/
theorem exec_idle {i : Instr} {s t : State} (hs : s.fatal = false → s.Idle) (h : exec i s = .next t) :
    t.fatal = false → t.Idle := by
  cases hi : needsGuard i with
  | false =>
    obtain ⟨-, x, rfl⟩ := exec_of_no_guard hi h
    simpa [State.Idle] using hs
  | true =>
    obtain ⟨-, rfl⟩ | ⟨hrun, -⟩ | ⟨n, -, hfatal, -⟩ := exec_cases hi h
    · exact hs
    · obtain ⟨u, hu, ⟨-, hlines, -, -, -, hchain⟩, -⟩ := exec_of_runs hi hrun
      rw [h] at hu
      injection hu with hu
      subst hu
      have hidle := keepsIdle_command s.config i s.guarded (hs hrun.2.1)
      unfold State.Idle at hidle
      rw [← hlines, ← hchain] at hidle
      exact fun _ => hidle
    · simp [hfatal]

/-- Settles O51: every command's script comes back to idle levels (`keepsIdle_command`). -/
theorem idleLevelsKept : Obligations.IdleLevelsKept := by
  unfold Obligations.IdleLevelsKept
  intro s t hlevels hlow h
  rw [idle_iff]
  refine step_induct (P := fun u => u.fatal = false → u.Idle) (fun u r hu => hu) ?_ ?_
    ((idle_iff s).mp ⟨hlevels, hlow⟩) h
  · exact fun u x hu => by simpa [State.Idle] using hu
  · exact fun i u v hu hexec => exec_idle hu hexec

/-! ### Traffic with LE = 0 at its pulses -/

/-- The chain is in Normal mode, and while FATAL = 0 the next pulse finds LE = 0 as the last one did. -/
def State.NormalTraffic (s : State) : Prop :=
  s.config.leSpecialLevel = true ∧ s.chain.mode = .normal ∧
    (s.fatal = false → s.lines.le = false ∧ ∀ x ∈ s.chain.samples.head?, x.2 = false)

/-- A line of a rule that does not raise LE. -/
def Act.lowersLe : Act → Bool
  | .line .le v => !v
  | .line .clk _ => true
  | .line .data _ => true
  | .line .oe _ => true
  | .latchPulse v => !v
  | .modeLevel v => !v
  | .hold _ => true
  | .saveSm => true
  | .restoreSm => true
  | .saveSb => true
  | .restoreSb => true

/-- A pulse with LE = 0 after one with LE = 0 selects no Special mode (R90). -/
theorem clockRise_normal {c : Config} {ls : Lines} {ch : Chain} (hc : c.leSpecialLevel = true)
    (hle : ls.le = false) (hlow : ∀ x ∈ ch.samples.head?, x.2 = false) (hm : ch.mode = .normal) :
    (ch.clockRise c ls).mode = .normal ∧ ∀ x ∈ (ch.clockRise c ls).samples.head?, x.2 = false := by
  have hstep := sampleSteps_le_low ls.oe 1 (ch.samples, ch.mode) hlow hm
  rw [clockRise_eq, hc, hle]
  exact hstep.symm

theorem react_clk (c : Config) (p : Purpose) (ls : Lines) (v : Level) (ch : Chain) :
    ch.react c p ls .clk v = if !ls.clk && v then ch.clockRise c ls else ch := rfl

theorem react_normal {c : Config} {p : Purpose} {ls : Lines} {l : Line} {v : Level} {ch : Chain}
    (hc : c.leSpecialLevel = true) (hle : ls.le = false) (hlow : ∀ x ∈ ch.samples.head?, x.2 = false)
    (hm : ch.mode = .normal) :
    (ch.react c p ls l v).mode = .normal ∧ ∀ x ∈ (ch.react c p ls l v).samples.head?, x.2 = false := by
  by_cases hl : l = .clk
  · subst hl
    rw [react_clk]
    split
    · exact clockRise_normal hc hle hlow hm
    · exact ⟨hm, hlow⟩
  · obtain ⟨-, hmode, hsamples⟩ := react_of_not_clk c p ls hl v ch
    rw [hmode, hsamples]
    exact ⟨hm, hlow⟩

/-- A line of a rule that does not raise LE leaves LE at 0 when it is done. -/
theorem quiet_le_low {a : Act} (ha : a.lowersLe = true) {s : State} (hle : s.lines.le = false) :
    (s.quiet a).lines.le = false := by
  cases a with
  | line l v => cases l <;> simp_all [State.quiet, Act.lowersLe]
  | _ => simp_all [State.quiet, Act.lowersLe]

theorem act_normalTraffic {a : Act} (ha : a.lowersLe = true) {s : State} (hf : s.fatal = false)
    (h : s.NormalTraffic) : (s.act a).NormalTraffic := by
  obtain ⟨hc, hm, hlow⟩ := h
  obtain ⟨hle, hlow⟩ := hlow hf
  obtain ⟨hmode, hsamples⟩ : (s.act a).chain.mode = .normal ∧ ∀ x ∈ (s.act a).chain.samples.head?, x.2 = false := by
    obtain hchain | ⟨p, l, v, -, -, hchain⟩ := act_chain_cases a s <;> rw [hchain]
    · exact ⟨hm, hlow⟩
    · exact react_normal hc hle hlow hm
  refine ⟨by rw [act_config, hc], hmode, fun hok => ⟨?_, hsamples⟩⟩
  obtain hq | ⟨l, v, b, -, hq⟩ := act_cases a s
  · rw [hq]
    exact quiet_le_low ha hle
  · rw [hq, raiseIoFailure_fatal] at hok
    cases hok

theorem perform_normalTraffic {script : List Act} (hscript : ∀ a ∈ script, a.lowersLe = true) {s : State}
    (h : s.NormalTraffic) : (perform script s).NormalTraffic :=
  perform_induct script (fun a ha _ hf hu => act_normalTraffic (hscript a ha) hf hu) h

/-- Without a write of CLK no pulse and so no mode switch (R36), however the lines end. -/
theorem perform_mode {script : List Act} (hscript : ∀ a ∈ script, a.target ≠ some .clk) (s : State) :
    (perform script s).chain.mode = s.chain.mode := by
  refine perform_induct (P := fun u => u.chain.mode = s.chain.mode) script (fun a ha u _ hu => ?_) rfl
  obtain hchain | ⟨p, l, v, htarget, -, hchain⟩ := act_chain_cases a u <;> rw [hchain]
  · exact hu
  · have hl : l ≠ .clk := by rintro rfl; exact hscript a ha htarget
    rw [(react_of_not_clk u.config p u.lines hl v u.chain).2.1, hu]

theorem lowersLe_of_shiftsOnly {a : Act} (h : a.shiftsOnly = true) : a.lowersLe = true := by
  cases a with
  | line l v => cases l <;> simp_all [Act.shiftsOnly, Act.lowersLe]
  | _ => simp_all [Act.shiftsOnly, Act.lowersLe]

theorem latch_target_ne_clk : ∀ a ∈ latchScript, a.target ≠ some .clk := by decide

/-- Of a command that is neither SWITCHMODE SPECIAL nor SETBRIGHTNESS, the lines that pulse CLK do not raise LE when
LE_SPECIAL_LEVEL = 1; those of LATCH's pulse follow them. -/
theorem commandScript_traffic {c : Config} (hc : c.leSpecialLevel = true) {i : Instr}
    (hspecial : i ≠ .switchmode .special) (hbright : ∀ code, i ≠ .setbrightness code) :
    ∃ pulses rest, commandScript c i = pulses ++ rest ∧ (∀ a ∈ pulses, a.lowersLe = true) ∧
      ∀ a ∈ rest, a.target ≠ some .clk := by
  cases i with
  | encode ch => exact ⟨[], [], rfl, by simp, by simp⟩
  | sendbit bit => exact ⟨sendBitScript bit, [], (List.append_nil _).symm, by cases bit <;> decide, by simp⟩
  | sendserial bits =>
    exact ⟨sendSerialScript bits, [], (List.append_nil _).symm,
      fun a ha => lowersLe_of_shiftsOnly (sendSerial_shiftsOnly bits a ha), by simp⟩
  | latch => exact ⟨[], latchScript, rfl, by simp, latch_target_ne_clk⟩
  | switchmode m =>
    cases m with
    | special => exact absurd rfl hspecial
    | normal =>
      refine ⟨switchModeScript true .normal, [], ?_, by decide, by simp⟩
      rw [commandScript, hc, List.append_nil]
  | setbrightness code => exact absurd rfl (hbright code)
  | render text =>
    exact ⟨renderShiftScript c.ctLetters text, latchScript, rfl,
      fun a ha => lowersLe_of_shiftsOnly (renderShift_shiftsOnly c.ctLetters text a ha), latch_target_ne_clk⟩
  | enable => exact ⟨[.line .oe false], [], rfl, by decide, by simp⟩
  | disable => exact ⟨[.line .oe true], [], rfl, by decide, by simp⟩

theorem finish_chain (s : State) : s.finish.chain = s.chain := by
  unfold State.finish
  split <;> simp

/-- A command does to the chain what its lines do. -/
theorem underGuard_chain (script : List Act) (s : State) :
    (s.underGuard script).chain = if s.canStart then (perform script s.guarded).chain else s.chain := by
  unfold State.underGuard
  split
  · exact finish_chain _
  · rfl

/-- Settles O55: any other command stays in Normal mode over its pulses (`perform_normalTraffic`) and after them
(`perform_mode`). -/
theorem trafficNeverEntersSpecial : Obligations.TrafficNeverEntersSpecial := by
  unfold Obligations.TrafficNeverEntersSpecial
  intro i s t hc hlevels hlow hm h hspecial
  by_contra hother
  rw [not_or, not_exists] at hother
  obtain ⟨hswitch, hbright⟩ := hother
  suffices hnormal : t.chain.mode = .normal by rw [hnormal] at hspecial; cases hspecial
  cases hi : needsGuard i with
  | false =>
    obtain ⟨-, x, rfl⟩ := exec_of_no_guard hi h
    rw [answer_chain, hm]
  | true =>
    rw [eq_underGuard_of_exec hi h, underGuard_chain]
    split
    · obtain ⟨pulses, rest, hscript, hpulses, hrest⟩ := commandScript_traffic hc hswitch hbright
      have htraffic : s.guarded.NormalTraffic := ⟨hc, hm, fun hf => ⟨(hlevels hf).2, hlow hf⟩⟩
      obtain ⟨-, hmode, -⟩ := perform_normalTraffic hpulses htraffic
      rw [hscript, perform_append, perform_mode hrest, hmode]
    · exact hm

end Sys2Proof.Machine
end

section
/-! PROOF. Frames: what a command leaves unchanged however it ends (41_serial_transport, 42_display_driver), from
which lines, save registers and chain parts the lines of its script can touch; obligations O34 to O39. -/

namespace Sys2Proof.Machine

/-! ### What no line of a script touches -/

/-- A line that no line of the script writes keeps its level. -/
theorem underGuard_get {script : List Act} {k : Line} (h : ∀ a ∈ script, a.target ≠ some k) (s : State) :
    (s.underGuard script).lines.get k = s.lines.get k :=
  underGuard_keeps (fun u => u.lines.get k) (fun a ha u => act_get_of_ne (h a ha) u) (fun _ _ => rfl)
    (fun u => by rw [advance_lines]) s

theorem underGuard_saveSm {script : List Act} (h : .saveSm ∉ script) (s : State) :
    (s.underGuard script).saveSm = s.saveSm :=
  underGuard_keeps (·.saveSm) (fun _ ha u => act_saveSm (fun heq => h (heq ▸ ha)) u) (fun _ _ => rfl)
    advance_saveSm s

theorem underGuard_saveSb {script : List Act} (h : .saveSb ∉ script) (s : State) :
    (s.underGuard script).saveSb = s.saveSb :=
  underGuard_keeps (·.saveSb) (fun _ ha u => act_saveSb (fun heq => h (heq ▸ ha)) u) (fun _ _ => rfl)
    advance_saveSb s

/-- Without a write of CLK nothing is shifted or sampled (R32, R36). -/
theorem act_chain_of_not_clk {a : Act} (h : a.target ≠ some .clk) (s : State) :
    (s.act a).chain.stage = s.chain.stage ∧ (s.act a).chain.mode = s.chain.mode ∧
    (s.act a).chain.samples = s.chain.samples := by
  obtain hc | ⟨p, l, v, hl, -, hc⟩ := act_chain_cases a s <;> rw [hc]
  · exact ⟨rfl, rfl, rfl⟩
  · exact react_of_not_clk s.config p s.lines (by rintro rfl; exact h hl) v s.chain

/-- Without a write of LE nothing is committed (R33, R34). -/
theorem act_registers_of_not_le {a : Act} (h : a.target ≠ some .le) (s : State) :
    (s.act a).chain.disp = s.chain.disp ∧ (s.act a).chain.cfg = s.chain.cfg := by
  obtain hc | ⟨p, l, v, hl, -, hc⟩ := act_chain_cases a s <;> rw [hc]
  · exact ⟨rfl, rfl⟩
  · exact react_registers_of_shift s.config p s.lines (by rintro rfl; exact h hl) v s.chain

/-- Without LATCH's pulse the configuration register is not written (R35, R37). -/
theorem act_cfg_of_not_latch {a : Act} (h : ∀ v, a ≠ .latchPulse v) (s : State) :
    (s.act a).chain.cfg = s.chain.cfg := by
  obtain hc | ⟨p, l, v, -, hp, hc⟩ := act_chain_cases a s <;> rw [hc]
  exact react_cfg_of_not_latch s.config (fun heq => h v (hp heq)) s.lines l v s.chain

/-- Without LATCH's pulse the reference receiver does not write the display register (R33, R37). -/
theorem act_disp_of_not_latch {a : Act} (h : ∀ v, a ≠ .latchPulse v) {s : State}
    (hn : s.config.specialCommit = .never) : (s.act a).chain.disp = s.chain.disp := by
  obtain hc | ⟨p, l, v, -, hp, hc⟩ := act_chain_cases a s <;> rw [hc]
  exact react_disp_of_not_latch hn (fun heq => h v (hp heq)) s.lines l v s.chain

/-- In the reference receiver lines without LATCH's pulse keep the display register, however they end. -/
theorem perform_disp_of_not_latch {script : List Act} (h : ∀ a ∈ script, ∀ v, a ≠ .latchPulse v) {s : State}
    (hn : s.config.specialCommit = .never) : (perform script s).chain.disp = s.chain.disp := by
  refine (perform_induct (P := fun u => u.config = s.config ∧ u.chain.disp = s.chain.disp) script ?_ ⟨rfl, rfl⟩).2
  rintro a ha u - ⟨hconfig, hdisp⟩
  exact ⟨by rw [act_config, hconfig], by rw [act_disp_of_not_latch (h a ha) (by rw [hconfig, hn]), hdisp]⟩

/-! ### SENDBIT, SENDSERIAL, RENDER -/

theorem target_of_shiftsOnly {a : Act} (h : a.shiftsOnly = true) :
    a.target ≠ some .le ∧ a.target ≠ some .oe := by
  cases a with
  | line l v => cases l <;> simp_all [Act.shiftsOnly, Act.target]
  | _ => simp_all [Act.shiftsOnly, Act.target]

theorem not_save_of_shiftsOnly {a : Act} (h : a.shiftsOnly = true) : a ≠ .saveSm ∧ a ≠ .saveSb := by
  constructor <;> rintro rfl <;> cases h

/-- Shifting writes DATA and CLK only and commits nothing. -/
theorem underGuard_of_shiftsOnly {script : List Act} (h : ∀ a ∈ script, a.shiftsOnly = true) (s : State) :
    (s.underGuard script).lines.le = s.lines.le ∧ (s.underGuard script).lines.oe = s.lines.oe ∧
    (s.underGuard script).saveSm = s.saveSm ∧ (s.underGuard script).saveSb = s.saveSb ∧
    (s.underGuard script).chain.disp = s.chain.disp ∧ (s.underGuard script).chain.cfg = s.chain.cfg := by
  have hle : ∀ a ∈ script, a.target ≠ some .le := fun a ha => (target_of_shiftsOnly (h a ha)).1
  have hoe : ∀ a ∈ script, a.target ≠ some .oe := fun a ha => (target_of_shiftsOnly (h a ha)).2
  refine ⟨underGuard_get hle s, underGuard_get hoe s,
    underGuard_saveSm (fun ha => (not_save_of_shiftsOnly (h _ ha)).1 rfl) s,
    underGuard_saveSb (fun ha => (not_save_of_shiftsOnly (h _ ha)).2 rfl) s, ?_, ?_⟩
  · exact underGuard_keeps (·.chain.disp) (fun a ha u => (act_registers_of_not_le (hle a ha) u).1)
      (fun _ _ => rfl) (fun u => by rw [advance_chain]) s
  · exact underGuard_keeps (·.chain.cfg) (fun a ha u => (act_registers_of_not_le (hle a ha) u).2)
      (fun _ _ => rfl) (fun u => by rw [advance_chain]) s

/-- Settles O34: both scripts only shift. -/
theorem shiftFrame : Obligations.ShiftFrame := by
  unfold Obligations.ShiftFrame
  rintro i s t (⟨bit, rfl⟩ | ⟨bits, rfl⟩) h
  · rw [eq_underGuard_of_exec rfl h]
    exact underGuard_of_shiftsOnly (script := sendBitScript bit) (sendSerial_shiftsOnly [bit]) s
  · rw [eq_underGuard_of_exec rfl h]
    exact underGuard_of_shiftsOnly (sendSerial_shiftsOnly bits) s

/-- A line of RENDER's script shifts or is a line of LATCH's. -/
theorem mem_renderScript {t : CharacterTable} {text : List Byte} {a : Act} (h : a ∈ renderScript t text) :
    a.shiftsOnly = true ∨ a ∈ latchScript :=
  (List.mem_append.mp h).imp_left (renderShift_shiftsOnly t text a)

/-- Settles O38: neither the shifting lines nor those of LATCH touch OE or a save register. -/
theorem renderFrame : Obligations.RenderFrame := by
  unfold Obligations.RenderFrame
  intro text s t h
  have hoe : ∀ a ∈ renderScript s.config.ctLetters text, a.target ≠ some .oe := fun a ha =>
    (mem_renderScript ha).elim (fun hshift => (target_of_shiftsOnly hshift).2)
      ((by decide : ∀ a ∈ latchScript, a.target ≠ some .oe) a)
  have hsave : ∀ a ∈ renderScript s.config.ctLetters text, a ≠ .saveSm ∧ a ≠ .saveSb := fun a ha =>
    (mem_renderScript ha).elim not_save_of_shiftsOnly
      ((by decide : ∀ a ∈ latchScript, a ≠ .saveSm ∧ a ≠ .saveSb) a)
  rw [eq_underGuard_of_exec rfl h]
  exact ⟨underGuard_get hoe s, underGuard_saveSm (fun ha => (hsave _ ha).1 rfl) s,
    underGuard_saveSb (fun ha => (hsave _ ha).2 rfl) s⟩

/-! ### LATCH, ENABLE, DISABLE -/

/-- Settles O35: the script writes LE only. -/
theorem latchFrame : Obligations.LatchFrame := by
  unfold Obligations.LatchFrame
  intro s t h
  rw [eq_underGuard_of_exec rfl h, commandScript]
  refine ⟨underGuard_get latch_target_ne_clk s, underGuard_get (k := .data) (by decide) s,
    underGuard_get (k := .oe) (by decide) s, underGuard_saveSm (by decide) s, underGuard_saveSb (by decide) s, ?_⟩
  have hkeep := underGuard_keeps (fun u => (u.chain.stage, u.chain.mode, u.chain.samples)) (script := latchScript)
    (fun a ha u => by
      obtain ⟨hstage, hmode, hsamples⟩ := act_chain_of_not_clk (latch_target_ne_clk a ha) u
      rw [hstage, hmode, hsamples])
    (fun _ _ => rfl) (fun u => by rw [advance_chain]) s
  simpa only [Prod.mk.injEq] using hkeep

/-- A write of OE, however it ends, leaves everything else of the block and the whole chain (R34). -/
theorem underGuard_writeOe (v : Level) (s : State) :
    (s.underGuard [.line .oe v]).lines.clk = s.lines.clk ∧ (s.underGuard [.line .oe v]).lines.data = s.lines.data ∧
    (s.underGuard [.line .oe v]).lines.le = s.lines.le ∧ (s.underGuard [.line .oe v]).saveSm = s.saveSm ∧
    (s.underGuard [.line .oe v]).saveSb = s.saveSb ∧ (s.underGuard [.line .oe v]).chain = s.chain := by
  have htarget : ∀ a ∈ [Act.line .oe v], a.target = some .oe := by simp [Act.target]
  have hother : ∀ k, k ≠ .oe → ∀ a ∈ [Act.line .oe v], a.target ≠ some k := fun k hk a ha => by
    rw [htarget a ha]; simpa using hk.symm
  refine ⟨underGuard_get (hother .clk (by decide)) s, underGuard_get (hother .data (by decide)) s,
    underGuard_get (hother .le (by decide)) s, underGuard_saveSm (by simp) s, underGuard_saveSb (by simp) s,
    underGuard_keeps (·.chain) (fun a ha u => ?_) (fun _ _ => rfl) advance_chain s⟩
  obtain hc | ⟨p, l, w, hl, -, hc⟩ := act_chain_cases a u
  · exact hc
  · obtain rfl : .oe = l := Option.some.inj ((htarget a ha).symm.trans hl)
    exact hc

/-- Settles O39: both are one write of OE. -/
theorem enableDisableFrame : Obligations.EnableDisableFrame := by
  unfold Obligations.EnableDisableFrame
  rintro i s t (rfl | rfl) h
  · rw [eq_underGuard_of_exec rfl h]
    exact underGuard_writeOe false s
  · rw [eq_underGuard_of_exec rfl h]
    exact underGuard_writeOe true s

/-! ### SWITCHMODE, SETBRIGHTNESS -/

theorem target_of_mem_switchModeScript {special : Level} {m : ChainMode} :
    ∀ a ∈ switchModeScript special m, a.target ≠ some .data := by
  simp [switchModeScript, pulseClock, Act.target]

theorem saveSb_not_mem_switchModeScript {special : Level} {m : ChainMode} :
    .saveSb ∉ switchModeScript special m := by
  simp [switchModeScript, pulseClock]

/-- The levels of LE around pulse 4 are no LATCH pulse (R37). -/
theorem latchPulse_not_mem_switchModeScript {special : Level} {m : ChainMode} :
    ∀ a ∈ switchModeScript special m, ∀ v, a ≠ .latchPulse v := by
  simp [switchModeScript, pulseClock]

/-- In the reference receiver a command without a LATCH pulse keeps the display register. -/
theorem underGuard_disp_of_not_latch {script : List Act} (h : ∀ a ∈ script, ∀ v, a ≠ .latchPulse v) {s : State}
    (hn : s.config.specialCommit = .never) : (s.underGuard script).chain.disp = s.chain.disp := by
  rw [underGuard_chain]
  split
  · exact perform_disp_of_not_latch h (s := s.guarded) hn
  · rfl

/-- Settles O36: the script has no write of DATA, no save of `SAVE_SB` and no LATCH pulse. -/
theorem switchModeFrame : Obligations.SwitchModeFrame := by
  unfold Obligations.SwitchModeFrame
  intro m s t h
  rw [eq_underGuard_of_exec rfl h]
  refine ⟨underGuard_get target_of_mem_switchModeScript s, underGuard_saveSb saveSb_not_mem_switchModeScript s,
    ?_, underGuard_disp_of_not_latch latchPulse_not_mem_switchModeScript⟩
  exact underGuard_keeps (·.chain.cfg)
    (fun a ha u => act_cfg_of_not_latch (latchPulse_not_mem_switchModeScript a ha) u) (fun _ _ => rfl)
    (fun u => by rw [advance_chain]) s

/-- Lines of LATCH in Special mode keep the display register, however they end (R35). -/
theorem perform_latch_of_special {s : State} (hm : s.chain.mode = .special) :
    (perform latchScript s).chain.disp = s.chain.disp := by
  refine (perform_induct (P := fun u => u.chain.mode = .special ∧ u.chain.disp = s.chain.disp) latchScript ?_
    ⟨hm, rfl⟩).2
  rintro a ha u - ⟨hmode, hdisp⟩
  obtain ⟨-, hkept, -⟩ := act_chain_of_not_clk (latch_target_ne_clk a ha) u
  refine ⟨hkept.trans hmode, ?_⟩
  rw [← hdisp]
  have hlatch : (∃ v, a = .latchPulse v) ∨ a = .hold .lew := by revert a; simp [latchScript]
  obtain ⟨v, rfl⟩ | rfl := hlatch
  · exact writeLine_cases (fun w => w.chain.disp = u.chain.disp) .latchPulse .le v u
      (by simpa using react_disp_of_special u.config u.lines v hmode) (fun b => by simp)
  · rfl

/-- The lines of SETBRIGHTNESS before its LATCH. -/
def configureScript (special : Level) (code : Byte) : List Act :=
  [.saveSb] ++ switchModeScript special .special ++ repeatScript brightnessRepeat (sendSerialScript (bitsOf code))

theorem setBrightnessScript_eq (special : Level) (code : Byte) :
    setBrightnessScript special code =
      configureScript special code ++ (latchScript ++ (.restoreSb :: switchModeScript special .normal)) := by
  simp [setBrightnessScript, configureScript]

theorem latchPulse_not_mem_configureScript {special : Level} {code : Byte} :
    ∀ a ∈ configureScript special code, ∀ v, a ≠ .latchPulse v := by
  intro a ha v
  simp only [configureScript, List.mem_append, List.mem_singleton] at ha
  obtain (rfl | ha) | ha := ha
  · simp
  · exact latchPulse_not_mem_switchModeScript a ha v
  · rintro rfl
    cases sendSerial_shiftsOnly _ _ (repeat_mem ha)

theorem perform_configure_latch {special : Level} {code : Byte} {s : State} (hclk : s.lines.clk = false)
    (hn : s.config.specialCommit = .never) (hf : s.fatal = false) (hsp : s.config.leSpecialLevel = special) :
    (perform latchScript (perform (configureScript special code) s)).chain.disp = s.chain.disp := by
  have hbefore : (perform (configureScript special code) s).chain.disp = s.chain.disp :=
    perform_disp_of_not_latch latchPulse_not_mem_configureScript hn
  obtain hquiet | hfatal := perform_quiet_or_fatal (configureScript special code) hf
  · obtain ⟨u, hu, -, -, -, -, -, -, hmode, -⟩ := quietAll_configuration special code s hclk hsp
    rw [perform_latch_of_special, hbefore]
    rw [hquiet, configureScript, hu, hmode]
  · rw [perform_of_fatal hfatal, hbefore]

/-- Settles O37: before the latch pulse no line commits; at it, if it is reached, the chain is in Special mode
(`perform_configure_latch`); after it no line commits. -/
theorem setBrightnessFrame : Obligations.SetBrightnessFrame := by
  unfold Obligations.SetBrightnessFrame
  intro code s t hclk hn h
  rw [eq_underGuard_of_exec rfl h, underGuard_chain]
  split
  · rename_i hstart
    obtain ⟨-, hf⟩ := (canStart_iff s).mp hstart
    have hafter : ∀ a ∈ Act.restoreSb :: switchModeScript s.config.leSpecialLevel .normal,
        ∀ v, a ≠ .latchPulse v := by
      intro a ha v
      obtain rfl | ha := List.mem_cons.mp ha
      · simp
      · exact latchPulse_not_mem_switchModeScript a ha v
    rw [commandScript, setBrightnessScript_eq, perform_append, perform_append,
      perform_disp_of_not_latch hafter ?_, perform_configure_latch (s := s.guarded) hclk hn hf rfl]
    rw [perform_config, perform_config, hn]
  · rfl

end Sys2Proof.Machine
end

section
/-! PROOF. What an observer reads off the events of a command, also of a first part of them (00_scope R8,
41_serial_transport R81, 70_reset_and_hazards R132): stable DATA, hold counts, the waveform; obligations O18, O58 and
O59. -/

namespace Sys2Proof.Machine

/-! ### DATA is stable over every pulse (R81) -/

/-- Events that from CLK = 0 write DATA at CLK = 0 only, and lead back to CLK = 0. -/
def WholePulses (evs : List Event) : Prop :=
  dataStable false evs = true ∧ ∀ ls : Lines, ls.clk = false → (replay ls evs).clk = false

theorem wholePulses_nil : WholePulses [] := ⟨rfl, fun _ h => h⟩

theorem wholePulses_append {xs ys : List Event} (hx : WholePulses xs) (hy : WholePulses ys) :
    WholePulses (xs ++ ys) := by
  obtain ⟨hxs, hxclk⟩ := hx
  obtain ⟨hys, hyclk⟩ := hy
  have hjoin := dataStable_append lowLines xs ys
  rw [hxclk lowLines rfl, hys, Bool.and_true] at hjoin
  refine ⟨hjoin.trans hxs, fun ls h => ?_⟩
  rw [replay_append]
  exact hyclk _ (hxclk ls h)

theorem wholePulses_sendBit (bit : Level) : WholePulses (sendBitEvents bit) := ⟨rfl, fun _ _ => rfl⟩

theorem wholePulses_serial (bits : List Level) : WholePulses (serialEvents bits) := by
  induction bits with
  | nil => exact wholePulses_nil
  | cons b bs ih =>
    rw [serialEvents_cons]
    exact wholePulses_append ih (wholePulses_sendBit b)

theorem wholePulses_latch : WholePulses latchEvents := ⟨rfl, fun _ h => h⟩

theorem wholePulses_switchMode (level oe : Level) : WholePulses (switchModeEvents level oe) := ⟨rfl, fun _ _ => rfl⟩

theorem wholePulses_writeOe (v : Level) : WholePulses [.write .oe v] := ⟨rfl, fun _ h => h⟩

theorem wholePulses_brightness (special oe : Level) (code : Byte) :
    WholePulses (brightnessEvents special oe code) := by
  rw [brightnessEvents_eq]
  exact wholePulses_append (wholePulses_switchMode special oe) <| wholePulses_append (wholePulses_serial _) <|
    wholePulses_append wholePulses_latch <| wholePulses_append (wholePulses_writeOe oe)
      (wholePulses_switchMode (!special) oe)

theorem wholePulses_command (c : Config) (oe : Level) (i : Instr) : WholePulses (commandEvents c oe i) := by
  cases i with
  | encode ch => exact wholePulses_nil
  | sendbit bit => exact wholePulses_sendBit bit
  | sendserial bits => exact wholePulses_serial bits
  | latch => exact wholePulses_latch
  | switchmode m =>
    rw [commandEvents_switchmode]
    exact wholePulses_switchMode _ oe
  | setbrightness code => exact wholePulses_brightness _ oe code
  | render text =>
    rw [commandEvents, renderEvents_eq]
    exact wholePulses_append (wholePulses_serial _) wholePulses_latch
  | enable => exact wholePulses_writeOe false
  | disable => exact wholePulses_writeOe true

/-- DATA is stable over a first part of events over which it is stable. -/
theorem dataStable_of_prefix {xs ys : List Event} (h : xs <+: ys) (hy : dataStable false ys = true) :
    dataStable false xs = true := by
  obtain ⟨zs, rfl⟩ := h
  have hjoin := dataStable_append lowLines xs zs
  rw [show lowLines.clk = false from rfl, hy] at hjoin
  exact (Bool.and_eq_true_iff.mp hjoin.symm).1

/-- Settles O18: what a command appends is a first part of its events, which are whole pulses. -/
theorem dataStableOverPulses : Obligations.DataStableOverPulses := by
  unfold Obligations.DataStableOverPulses
  rintro i s t - h
  obtain ⟨evs, hprefix, htrace, -⟩ := exec_appends h
  exact ⟨evs, htrace, dataStable_of_prefix hprefix (wholePulses_command _ _ i).1⟩

/-! ### Hold counts (R132) -/

/-- The clock widths and the latch widths that some events hold for. -/
def holdTally (evs : List Event) : Nat × Nat := (evs.count (.hold .clkw), evs.count (.hold .lew))

theorem holdTally_append (xs ys : List Event) : holdTally (xs ++ ys) = holdTally xs + holdTally ys := by
  simp [holdTally]

theorem holdTally_serialEvents (bits : List Level) : holdTally (serialEvents bits) = (bits.length, 0) := by
  have hclkw : clockEvents.count (.hold .clkw) = 1 := rfl
  have hlew : clockEvents.count (.hold .lew) = 0 := rfl
  simp [holdTally, count_serialEvents, hclkw, hlew]

theorem holdTally_latchEvents : holdTally latchEvents = (0, 1) := rfl

theorem holdTally_switchModeEvents (level oe : Level) : holdTally (switchModeEvents level oe) = (5, 0) := rfl

theorem holdTally_writeOe (v : Level) : holdTally [.write .oe v] = (0, 0) := rfl

theorem holdTally_brightnessEvents (special oe : Level) (code : Byte) :
    holdTally (brightnessEvents special oe code) = (82, 1) := by
  rw [brightnessEvents_eq]
  simp only [holdTally_append, holdTally_switchModeEvents, holdTally_serialEvents, holdTally_latchEvents,
    holdTally_writeOe, brightnessBits_length]
  rfl

theorem holdTally_renderEvents (t : CharacterTable) (text : List Byte) :
    holdTally (renderEvents t text) = (8 * (mappedChars text).length, 1) := by
  rw [renderEvents_eq, holdTally_append, holdTally_serialEvents, holdTally_latchEvents, textPatterns_length]
  rfl

/-- Settles O58: the counts of the events command by command, which the trace grows by. -/
theorem leastDurations : Obligations.LeastDurations := by
  unfold Obligations.LeastDurations
  intro i s clocks latches htable hrun
  have htally : holdTally (commandEvents s.config s.lines.oe i) = (clocks, latches) := by
    rw [htable]
    cases i with
    | sendserial bits => exact holdTally_serialEvents bits
    | switchmode m =>
      rw [commandEvents_switchmode]
      exact holdTally_switchModeEvents _ _
    | setbrightness code => exact holdTally_brightnessEvents _ _ code
    | render text => exact holdTally_renderEvents _ text
    | encode | sendbit | latch | enable | disable => rfl
  obtain ⟨hclocks, hlatches⟩ := Prod.mk.inj htally
  obtain ⟨t, ht, htrace⟩ := exec_trace_of_runs i hrun
  refine ⟨t, _, ht, htrace, hclocks, hlatches, ?_⟩
  rw [(exec_config_turns ht).1, htrace, leastDuration_append, leastDuration, leastDuration, hclocks, hlatches]

/-! ### The waveform (R8) -/

theorem waveform_write_same (c : Config) {ls : Lines} {l : Line} {v : Level} (h : ls.get l = v) (evs : List Event) :
    waveform c ls (.write l v :: evs) = waveform c ls evs := by rw [waveform, if_pos h]

theorem waveform_write_change (c : Config) {ls : Lines} {l : Line} {v : Level} (h : ls.get l ≠ v)
    (evs : List Event) : waveform c ls (.write l v :: evs) = .write l v :: waveform c (ls.set l v) evs := by
  rw [waveform, if_neg h]

theorem waveform_hold_zero {c : Config} {w : Width} (h : widthOf c w = 0) (ls : Lines) (evs : List Event) :
    waveform c ls (.hold w :: evs) = waveform c ls evs := by rw [waveform, if_pos h]

theorem waveform_hold_nonzero {c : Config} {w : Width} (h : widthOf c w ≠ 0) (ls : Lines) (evs : List Event) :
    waveform c ls (.hold w :: evs) = .hold w :: waveform c ls evs := by rw [waveform, if_neg h]

/-- A waveform holds nothing that drops out of it. -/
theorem waveform_idempotent (c : Config) (ls : Lines) (evs : List Event) :
    waveform c ls (waveform c ls evs) = waveform c ls evs := by
  induction evs generalizing ls with
  | nil => rfl
  | cons e es ih =>
    cases e with
    | write l v =>
      by_cases h : ls.get l = v
      · rw [waveform_write_same c h, ih]
      · rw [waveform_write_change c h, waveform_write_change c h, ih]
    | hold w =>
      by_cases h : widthOf c w = 0
      · rw [waveform_hold_zero h, ih]
      · rw [waveform_hold_nonzero h, waveform_hold_nonzero h, ih]

/-- Appended events append their own waveform, from the lines the trace has led to. -/
theorem waveform_of_trace {s t : State} {ls : Lines} {evs : List Event} (hlines : replay ls s.trace = s.lines)
    (hconfig : t.config = s.config) (htrace : t.trace = s.trace ++ evs) :
    waveform t.config ls t.trace = waveform s.config ls s.trace ++ waveform s.config s.lines evs := by
  rw [hconfig, htrace, waveform_append, hlines]

theorem get_oe (ls : Lines) : ls.get .oe = ls.oe := rfl

/-- At OE = 0 and at OE = 1 the redundant command is one write of the level OE has. -/
theorem commandEvents_redundant (c : Config) (oe : Level) :
    commandEvents c oe (if oe then .disable else .enable) = [.write .oe oe] := by cases oe <;> rfl

/-- Settles O59: what is inserted into a list by `waveform_append`, what commands append by `exec_appends`. -/
theorem waveformIsFaithful : Obligations.WaveformIsFaithful := by
  unfold Obligations.WaveformIsFaithful
  refine ⟨fun c ls xs ys => ⟨rfl, replay_waveform c ls xs, waveform_idempotent c ls xs, fun l => ?_, fun w hw => ?_,
    fun l v hv => ?_, fun w hw => ?_⟩, fun i s t ls hlines h => ?_, fun i s ls hlines hrun => ?_,
    fun s ls hlines hrun => ?_⟩
  · rw [waveform_append, waveform_append, waveform_write_same c rfl]
  · rw [waveform_append, waveform_append, waveform_hold_zero hw]
  · rw [waveform_append, waveform_write_change c hv]
  · rw [waveform_append, waveform_hold_nonzero hw]
  · obtain ⟨evs, hprefix, htrace, hend, -⟩ := exec_appends h
    refine ⟨evs, hprefix, htrace, fun hok => ?_, waveform_of_trace hlines (exec_config_turns h).1 htrace⟩
    rw [htrace, replay_append, hlines, hend hok]
  · obtain ⟨t, ht, htrace⟩ := exec_trace_of_runs i hrun
    exact ⟨t, ht, waveform_of_trace hlines (exec_config_turns ht).1 htrace⟩
  · rw [← commandEvents_redundant s.config] at hrun
    obtain ⟨t, ht, htrace⟩ := exec_trace_of_runs _ hrun
    rw [commandEvents_redundant] at htrace
    refine ⟨t, ht, htrace, ?_⟩
    rw [waveform_of_trace hlines (exec_config_turns ht).1 htrace,
      waveform_write_same s.config (get_oe s.lines), waveform, List.append_nil]

end Sys2Proof.Machine
end

section
/-! PROOF. Characters the table maps and does not map (40_segment_encoder section 2, 30_encoding section 1), and the
default table's bytes; obligations O9 and O10. -/

namespace Sys2Proof.Machine

/-- The space lights nothing in every table (R72). -/
theorem encodeChar_space (t : CharacterTable) : encodeChar t 0x20#8 = List.replicate 8 false :=
  encodeChar_of_glyph (g := .space) rfl

/-- An unmapped character sends nothing (R74, R100). -/
theorem renderEvents_of_unmapped (t : CharacterTable) {ch : Byte} (h : isMapped ch = false) (text : List Byte) :
    renderEvents t (ch :: text) = renderEvents t text := by
  rw [renderEvents_eq, renderEvents_eq, textPatterns_cons, encodeChar_of_unmapped t h, List.nil_append]

/-- Settles O10: `encodeChar_space` and `renderEvents_of_unmapped`. -/
theorem spaceIsNotUnmapped : Obligations.SpaceIsNotUnmapped := by
  unfold Obligations.SpaceIsNotUnmapped
  exact fun t => ⟨encodeChar_space t, fun ch h => ⟨encodeChar_of_unmapped t h, renderEvents_of_unmapped t h⟩⟩

/-- Settles O9: the default table evaluated at the sixteen characters. -/
theorem defaultFontBytes : Obligations.DefaultFontBytes := by
  unfold Obligations.DefaultFontBytes
  rfl

end Sys2Proof.Machine
end

section
/-! PROOF. What the commands that complete leave in the chain (20_memory section 2, 41_serial_transport sections 2 to
5, 42_display_driver section 2): shifted stages, committed registers, the mode; obligations O14 and O24 to O28. -/

namespace Sys2Proof.Machine

/-! ### SENDSERIAL -/

/-- The stages after SENDSERIAL (R32, R41): from CLK = 1 the first pulse, that of the last element, is none. -/
theorem quietAll_sendSerial_stage (bits : List Level) (s : State) :
    (s.quietAll (sendSerialScript bits)).chain.stage =
      ((if s.lines.clk then bits.dropLast else bits) ++ s.chain.stage).take s.chain.stage.length := by
  cases hclk : s.lines.clk with
  | false => exact congrArg Chain.stage (quietAll_sendSerial_chain bits s hclk).2
  | true =>
    obtain rfl | ⟨init, last, rfl⟩ := List.eq_nil_or_concat' bits
    · simp [sendSerialScript]
    · obtain ⟨hlines, hchain⟩ := quietAll_sendBit last s
      rw [hclk, if_pos rfl] at hchain
      obtain ⟨-, hinit⟩ := quietAll_sendSerial_chain init (s.quietAll (sendBitScript last)) (by rw [hlines])
      rw [sendSerial_append, quietAll_append]
      simp only [sendSerialScript, List.nil_append, if_true, List.dropLast_concat]
      rw [hinit, hchain]

/-- Settles O25: `quietAll_sendSerial_stage`; that nothing is committed holds however SENDSERIAL ends. -/
theorem serialShiftsStages : Obligations.SerialShiftsStages := by
  unfold Obligations.SerialShiftsStages
  intro bits s hrun
  obtain ⟨t, ht, ⟨-, -, -, -, -, hchain⟩, -⟩ := exec_of_runs (i := .sendserial bits) rfl hrun
  obtain ⟨-, -, -, -, hdisp, hcfg⟩ := underGuard_of_shiftsOnly (sendSerial_shiftsOnly bits) s
  rw [show s.underGuard (sendSerialScript bits) = t from (eq_underGuard_of_exec rfl ht).symm] at hdisp hcfg
  exact ⟨t, ht, by rw [hchain]; exact quietAll_sendSerial_stage bits s.guarded, hdisp, hcfg⟩

/-! ### LATCH -/

/-- Settles O14: the events are the command's, and they lead to LE = 0. -/
theorem latchRuns : Obligations.LatchRuns := by
  unfold Obligations.LatchRuns
  intro s
  refine ⟨rfl, fun hrun => ?_, fun n hfail => ?_⟩
  · obtain ⟨t, ht, -, hdone⟩ := exec_of_runs (i := .latch) rfl hrun
    have ⟨_, hlines, _⟩ := hdone
    exact ⟨t, ht, hdone, hlines⟩
  · have ⟨_, _, hn, _⟩ := hfail
    exact ⟨hn, exec_of_fails (i := .latch) rfl hfail⟩

/-- What a commit does, register by register (R33, R35). -/
theorem commit_eq (ch : Chain) : ch.commit =
    { ch with
      disp := if ch.mode = .normal then ch.stage else ch.disp
      cfg := if ch.mode = .special then ch.stage else ch.cfg } := by
  cases h : ch.mode <;> simp [Chain.commit, h]

/-- Settles O26: from LE = 0 the chain commits (`commit_eq`), from LE = 1 it does not react (`quietAll_latch`). -/
theorem latchCommitsStages : Obligations.LatchCommitsStages := by
  unfold Obligations.LatchCommitsStages
  intro s hrun
  obtain ⟨t, ht, ⟨-, -, -, -, -, hchain⟩, -⟩ := exec_of_runs (i := .latch) rfl hrun
  obtain ⟨-, hlatch, -⟩ := quietAll_latch s.guarded
  replace hchain : t.chain = if s.lines.le then s.chain else s.chain.commit := hchain.trans hlatch
  refine ⟨t, ht, ?_⟩
  rw [hchain, commit_eq]
  cases s.lines.le <;> simp

/-! ### DISABLE -/

/-- At OE = 1 the lamps are off whatever the display register holds (R34). -/
theorem lamps_of_oe_high (ch : Chain) : ch.lamps true = List.replicate ch.disp.length false := if_pos rfl

/-- Settles O24: the counterpart of ENABLE, with the level 1. -/
theorem disableRuns : Obligations.DisableRuns := by
  unfold Obligations.DisableRuns
  intro s
  refine ⟨rfl, fun hrun => ?_, exec_of_fails (i := .disable) rfl⟩
  obtain ⟨t, ht, ⟨-, hlines, -, -, -, hchain⟩, hdone⟩ := exec_of_runs (i := .disable) rfl hrun
  obtain ⟨lines, chain⟩ := quietAll_writeOe true s.guarded
  replace hlines : t.lines = { s.lines with oe := true } := hlines.trans lines
  replace hchain : t.chain = s.chain := hchain.trans chain
  refine ⟨t, ht, hdone, hlines, hchain, ?_⟩
  rw [hlines, hchain]
  exact lamps_of_oe_high s.chain

/-! ### SWITCHMODE, SETBRIGHTNESS -/

/-- Settles O27: the recogniser and the stages from `quietAll_switchMode_chain`, the display register from
`quietAll_switchMode_disp`. -/
theorem switchModeSetsMode : Obligations.SwitchModeSetsMode := by
  unfold Obligations.SwitchModeSetsMode
  intro m s hclk hrun
  rw [← levelFor_eq_ite, ← commandEvents_switchmode] at hrun
  obtain ⟨t, ht, ⟨-, -, -, -, -, hchain⟩, -⟩ := exec_of_runs (i := .switchmode m) rfl hrun
  obtain ⟨hstage, hcfg, -, hmode⟩ := quietAll_switchMode_chain s.config.leSpecialLevel m s.guarded hclk rfl
  obtain ⟨hnever, hdisp⟩ := quietAll_switchMode_disp s.config.leSpecialLevel m s.guarded hclk
  rw [commandScript] at hchain
  rw [← hchain] at hstage hcfg hmode hnever hdisp
  exact ⟨t, ht, hmode, hstage, hcfg, hnever, hdisp⟩

/-- Settles O28: `quietAll_setBrightness`; 72 stages hold the code nine times over and nothing behind. -/
theorem setBrightnessConfiguresChain : Obligations.SetBrightnessConfiguresChain := by
  unfold Obligations.SetBrightnessConfiguresChain
  intro code s hclk hrun
  obtain ⟨t, ht, ⟨-, -, -, -, -, hchain⟩, -⟩ := exec_of_runs (i := .setbrightness code) rfl hrun
  obtain ⟨u, hu, hmode, hcfg, hstage, hdisp⟩ :=
    quietAll_setBrightness s.config.leSpecialLevel code s.guarded hclk rfl
  replace hchain : t.chain = u.chain := by rw [hchain, ← hu]; rfl
  rw [← hchain] at hmode hcfg hstage hdisp
  refine ⟨t, ht, hmode, hcfg, fun hlen => ?_, ?_, hdisp⟩
  · rw [hcfg, hlen]
    exact List.take_left' (brightnessBits_length code)
  · rw [hstage, hcfg]
    exact take_append_take ..

end Sys2Proof.Machine
end

section
/-! PROOF. RENDER (42_display_driver section 1): its events and lines, its equality with the commands it stands for,
and the same for SETBRIGHTNESS (30_encoding section 7); obligations O19 to O22. -/

namespace Sys2Proof.Machine

/-! ### RENDER's events and lines -/

theorem renderEvents_length (t : CharacterTable) (text : List Byte) :
    (renderEvents t text).length = 32 * (mappedChars text).length + 3 := congrArg Prod.fst (tally_renderEvents t text)

/-- Nothing is sent exactly when no character is mapped (R74, R100). -/
theorem textPatterns_eq_nil (t : CharacterTable) (text : List Byte) :
    textPatterns t text = [] ↔ mappedChars text = [] := by
  rw [← List.length_eq_zero_iff, ← List.length_eq_zero_iff, textPatterns_length]
  omega

/-- The lines after RENDER (R100): those after its one SENDSERIAL and the latch pulse. -/
theorem replay_renderEvents (ls : Lines) (t : CharacterTable) (text : List Byte) :
    replay ls (renderEvents t text) =
      { ls with
        le := false
        clk := if mappedChars text = [] then ls.clk else false
        data := (textPatterns t text).headD ls.data } := by
  rw [renderEvents_eq, replay_append, replay_serialEvents]
  simp only [textPatterns_eq_nil]
  rfl

/-- Settles O19: the events are `renderEvents`, the lines are where they lead. -/
theorem renderRuns : Obligations.RenderRuns := by
  unfold Obligations.RenderRuns
  intro text s
  refine ⟨rfl, fun evs hevs => ?_⟩
  have hcommand : evs = commandEvents s.config s.lines.oe (.render text) := hevs
  rw [hcommand]
  refine ⟨renderEvents_length s.config.ctLetters text, fun hrun => ?_, fun n hfail => exec_of_fails rfl hfail⟩
  obtain ⟨t, ht, -, hdone⟩ := exec_of_runs rfl hrun
  have ⟨_, hlines, _⟩ := hdone
  exact ⟨t, ht, hdone, hlines.trans (replay_renderEvents ..)⟩

/-! ### RENDER as other commands -/

/-- The script of RENDER is that of one SENDSERIAL of the joined patterns and that of LATCH (R101). -/
theorem renderScript_eq (t : CharacterTable) (text : List Byte) :
    renderScript t text = sendSerialScript (textPatterns t text) ++ latchScript := by
  rw [renderScript, renderShift_eq]

/-- Settles O20: the joined patterns of a text are those of its mapped characters, so the scripts are equal. -/
theorem renderSkipsUnmapped : Obligations.RenderSkipsUnmapped := by
  unfold Obligations.RenderSkipsUnmapped
  intro text s
  rw [exec_underGuard rfl, exec_underGuard rfl, commandScript, commandScript, renderScript_eq, renderScript_eq,
    textPatterns_mappedChars]

/-- Settles O21: the two scripts joined are RENDER's. -/
theorem renderIsSerialThenLatch : Obligations.RenderIsSerialThenLatch := by
  unfold Obligations.RenderIsSerialThenLatch
  intro text s hrun
  refine exec_execAll_of_runs (i := .render text) rfl (by simp [needsGuard]) ?_ hrun
  simp [commandScript, renderScript_eq]

/-! ### SETBRIGHTNESS as other commands -/

/-- A line of a rule that has nothing to do with `SAVE_SB`. -/
def Act.avoidsSb (a : Act) : Prop := a ≠ .saveSb ∧ a ≠ .restoreSb

/-- Lines that have nothing to do with `SAVE_SB` do the same whatever it holds. -/
theorem quiet_of_saveSb {a : Act} (h : a.avoidsSb) (x : Level) (s : State) :
    { s with saveSb := x }.quiet a = { s.quiet a with saveSb := x } := by
  obtain ⟨hsave, hrestore⟩ := h
  have hdraw : State.drawIo { s with saveSb := x } = { s.drawIo with saveSb := x } := by
    unfold State.drawIo
    split <;> rfl
  cases a with
  | saveSb => exact absurd rfl hsave
  | restoreSb => exact absurd rfl hrestore
  | hold w => rfl
  | saveSm => rfl
  | line | latchPulse | modeLevel | restoreSm => simp only [State.quiet, hdraw]; rfl

theorem quietAll_of_saveSb {as : List Act} (h : ∀ a ∈ as, a.avoidsSb) (x : Level) (s : State) :
    { s with saveSb := x }.quietAll as = { s.quietAll as with saveSb := x } := by
  induction as generalizing s with
  | nil => rfl
  | cons a as ih =>
    rw [quietAll_cons, quiet_of_saveSb (h a (List.mem_cons_self ..)),
      ih (fun b hb => h b (List.mem_cons_of_mem _ hb)), quietAll_cons]

theorem avoidsSb_switchMode (special : Level) (m : ChainMode) : ∀ a ∈ switchModeScript special m, a.avoidsSb := by
  simp [switchModeScript, pulseClock, Act.avoidsSb]

theorem avoidsSb_sendSerial (bits : List Level) : ∀ a ∈ sendSerialScript bits, a.avoidsSb := by
  intro a ha
  have hshift := sendSerial_shiftsOnly bits a ha
  exact ⟨(not_save_of_shiftsOnly hshift).2, by rintro rfl; cases hshift⟩

theorem avoidsSb_latch : ∀ a ∈ latchScript, a.avoidsSb := by simp [latchScript, Act.avoidsSb]

/-- SETBRIGHTNESS's lines up to its LATCH, but for the save of OE. -/
def sendCodeScript (special : Level) (code : Byte) : List Act :=
  switchModeScript special .special ++ (sendSerialScript (brightnessBits code) ++ latchScript)

theorem avoidsSb_sendCode (special : Level) (code : Byte) : ∀ a ∈ sendCodeScript special code, a.avoidsSb := by
  intro a ha
  obtain ha | ha := List.mem_append.mp ha
  · exact avoidsSb_switchMode special .special a ha
  · obtain ha | ha := List.mem_append.mp ha
    · exact avoidsSb_sendSerial _ a ha
    · exact avoidsSb_latch a ha

/-- The scripts of the commands SETBRIGHTNESS is made of, joined, from a state with OE at the level `oe`: the write
of OE stands where SETBRIGHTNESS restores it. -/
def compositionScript (special oe : Level) (code : Byte) : List Act :=
  sendCodeScript special code ++ (.line .oe oe :: switchModeScript special .normal)

theorem setBrightnessScript_eq_sendCode (special : Level) (code : Byte) :
    setBrightnessScript special code =
      .saveSb :: (sendCodeScript special code ++ (.restoreSb :: switchModeScript special .normal)) := by
  simp [setBrightnessScript, sendCodeScript, brightnessRepeat, repeat_sendSerial, brightnessBits]

theorem avoidsSb_composition (special oe : Level) (code : Byte) :
    ∀ a ∈ compositionScript special oe code, a.avoidsSb := by
  intro a ha
  obtain ha | ha := List.mem_append.mp ha
  · exact avoidsSb_sendCode special code a ha
  · obtain rfl | ha := List.mem_cons.mp ha
    · simp [Act.avoidsSb]
    · exact avoidsSb_switchMode special .normal a ha

theorem quiet_saveSb (s : State) : s.quiet .saveSb = { s with saveSb := s.lines.oe } := rfl

/-- Restoring OE is a write of the saved level. -/
theorem quiet_restoreSb (s : State) : s.quiet .restoreSb = s.quiet (.line .oe s.saveSb) := rfl

/-- SETBRIGHTNESS is the joined scripts but for `SAVE_SB`, which holds the level of OE that they write out. -/
theorem quietAll_setBrightness_eq (special : Level) (code : Byte) (s : State) :
    s.quietAll (setBrightnessScript special code) =
      { s.quietAll (compositionScript special s.lines.oe code) with saveSb := s.lines.oe } := by
  have hsaved : ((s.quiet .saveSb).quietAll (sendCodeScript special code)).saveSb = s.lines.oe := by
    rw [quiet_saveSb, quietAll_of_saveSb (avoidsSb_sendCode special code)]
  rw [setBrightnessScript_eq_sendCode, quietAll_cons, quietAll_append, quietAll_cons, quiet_restoreSb, hsaved,
    ← quietAll_cons, ← quietAll_append, ← compositionScript, quiet_saveSb,
    quietAll_of_saveSb (avoidsSb_composition special s.lines.oe code)]

/-- The joined scripts append what SETBRIGHTNESS does, since they lead to the same trace. -/
theorem eventsOf_composition (special : Level) (code : Byte) (s : State) :
    eventsOf (compositionScript special s.lines.oe code) s = brightnessEvents special s.lines.oe code := by
  have htrace : (s.quietAll (compositionScript special s.lines.oe code)).trace =
      (s.quietAll (setBrightnessScript special code)).trace := by rw [quietAll_setBrightness_eq]
  rw [quietAll_trace, quietAll_trace, eventsOf_setBrightness] at htrace
  exact List.append_cancel_left htrace

/-- The commands SETBRIGHTNESS is made of (30_encoding section 7), for the level of OE found. -/
def compositionOf (oe : Level) (code : Byte) : List Instr :=
  [Instr.switchmode .special] ++ List.replicate 9 (Instr.sendserial (bitsOf code)) ++
    [Instr.latch, if oe then .disable else .enable, .switchmode .normal]

theorem compositionOf_needsGuard (oe : Level) (code : Byte) : ∀ i ∈ compositionOf oe code, needsGuard i = true := by
  cases oe <;> simp [compositionOf, needsGuard]

theorem flatMap_compositionOf (c : Config) (oe : Level) (code : Byte) :
    (compositionOf oe code).flatMap (commandScript c) = compositionScript c.leSpecialLevel oe code := by
  have hserial : (List.replicate 9 (Instr.sendserial (bitsOf code))).flatMap (commandScript c) =
      sendSerialScript (brightnessBits code) := by
    rw [brightnessBits, ← repeat_sendSerial]
    rfl
  have hoe : commandScript c (if oe then .disable else .enable) = [.line .oe oe] := by cases oe <;> rfl
  rw [compositionOf, List.flatMap_append, List.flatMap_append, hserial, List.append_assoc]
  simp only [List.flatMap_cons, List.flatMap_nil, List.append_nil, hoe, List.singleton_append, compositionScript,
    sendCodeScript, List.append_assoc]
  rfl

/-- Settles O22: both run without a failure, and their scripts differ in `SAVE_SB` only
(`quietAll_setBrightness_eq`). -/
theorem setBrightnessIsComposition : Obligations.SetBrightnessIsComposition := by
  unfold Obligations.SetBrightnessIsComposition
  intro code s hrun
  have hscript := flatMap_compositionOf s.config s.lines.oe code
  have hevents := eventsOf_composition s.config.leSpecialLevel code s.guarded
  obtain ⟨t, ht, ⟨-, tlines, -, -, ttrace, tchain⟩, -⟩ := exec_of_runs (i := .setbrightness code) rfl hrun
  obtain ⟨u, hu, ⟨-, ulines, -, -, utrace, uchain⟩, -⟩ :=
    execAll_of_runs (compositionOf s.lines.oe code) (compositionOf_needsGuard _ code) (s := s)
      (by rw [hscript, hevents]; exact hrun)
  rw [hscript] at ulines utrace uchain
  have hsame : s.guarded.quietAll (commandScript s.config (.setbrightness code)) =
      { s.guarded.quietAll (compositionScript s.config.leSpecialLevel s.lines.oe code) with saveSb := s.lines.oe } :=
    quietAll_setBrightness_eq s.config.leSpecialLevel code s.guarded
  rw [hsame] at tlines ttrace tchain
  generalize s.guarded.quietAll (compositionScript s.config.leSpecialLevel s.lines.oe code) = joined at *
  exact ⟨t, u, ht, hu, utrace.trans ttrace.symm, ulines.trans tlines.symm, uchain.trans tchain.symm⟩

end Sys2Proof.Machine
end

section
/-! PROOF. Frames in the chain (20_memory sections 3, 4 and 6, 70_reset_and_hazards section 4): where the patterns of
a RENDER end, that a full frame repeated settles and a short one need not; obligations O29 to O32. -/

namespace Sys2Proof.Machine

/-! ### RENDER and the chain -/

/-- What RENDER's lines leave of the chain from CLK = 0 and LE = 0: the patterns in front of the old stages, then
the commit (R41, R33, R35). -/
theorem quietAll_render_chain (t : CharacterTable) (text : List Byte) {s : State} (hclk : s.lines.clk = false)
    (hle : s.lines.le = false) :
    (s.quietAll (renderScript t text)).chain =
      Chain.commit
        { s.chain with
          stage := (textPatterns t text ++ s.chain.stage).take s.chain.stage.length
          samples := (sampleSteps s.config.leSpecialLevel (s.lines.oe, false) (textPatterns t text).length
            (s.chain.samples, s.chain.mode)).1
          mode := (sampleSteps s.config.leSpecialLevel (s.lines.oe, false) (textPatterns t text).length
            (s.chain.samples, s.chain.mode)).2 } := by
  obtain ⟨-, hchain⟩ := quietAll_sendSerial_chain (textPatterns t text) s hclk
  obtain ⟨hle', -⟩ := quietAll_shiftsOnly (sendSerial_shiftsOnly (textPatterns t text)) s
  obtain ⟨-, hlatch, -⟩ := quietAll_latch (s.quietAll (sendSerialScript (textPatterns t text)))
  rw [renderScript_eq, quietAll_append, hlatch, hle', hle, if_neg Bool.false_ne_true, hchain, hle]

/-- A RENDER from CLK = 0 and LE = 0 none of whose writes fails, with the chain it leaves. -/
theorem exec_render_of_runs {text : List Byte} {s : State} (hclk : s.lines.clk = false)
    (hle : s.lines.le = false) (h : s.RunsThrough (renderEvents s.config.ctLetters text)) :
    ∃ t, exec (.render text) s = .next t ∧ s.Completed t (renderEvents s.config.ctLetters text) ∧
      t.chain.stage = (textPatterns s.config.ctLetters text ++ s.chain.stage).take s.chain.stage.length ∧
      (t.chain.samples, t.chain.mode) = sampleSteps s.config.leSpecialLevel (s.lines.oe, false)
        (textPatterns s.config.ctLetters text).length (s.chain.samples, s.chain.mode) ∧
      t.chain.disp = (if t.chain.mode = .normal then t.chain.stage else s.chain.disp) ∧
      t.chain.cfg = (if t.chain.mode = .special then t.chain.stage else s.chain.cfg) := by
  obtain ⟨t, ht, ⟨-, -, -, -, -, hchain⟩, hdone⟩ := exec_of_runs (i := .render text) rfl h
  rw [commandScript, quietAll_render_chain s.config.ctLetters text (s := s.guarded) hclk hle, commit_eq] at hchain
  refine ⟨t, ht, hdone, ?_⟩
  rw [hchain]
  exact ⟨rfl, rfl, rfl, rfl⟩

/-- Settles O29: `exec_render_of_runs`. -/
theorem renderCommitsFrame : Obligations.RenderCommitsFrame := by
  unfold Obligations.RenderCommitsFrame
  intro text s hclk hle hrun
  obtain ⟨t, ht, -, hstage, -, hdisp, hcfg⟩ := exec_render_of_runs hclk hle hrun
  exact ⟨t, ht, hstage, hdisp, hcfg⟩

/-- A RENDER that completes leaves CLK, LE and OE as they were at idle levels. -/
theorem completed_render_lines {text : List Byte} {s t : State} (hclk : s.lines.clk = false)
    (h : s.Completed t (renderEvents s.config.ctLetters text)) :
    t.lines.clk = false ∧ t.lines.le = false ∧ t.lines.oe = s.lines.oe := by
  obtain ⟨-, hlines, -⟩ := h
  rw [hlines, replay_renderEvents]
  simp [hclk]

/-- A RENDER with no switch begun stays in Normal mode and begins none (R36, R90). -/
theorem render_keeps_normal {text : List Byte} {s t : State} (hclk : s.lines.clk = false) (hf : s.fatal = false)
    (hm : s.chain.mode = .normal) (hswitch : s.NoSwitchBegun)
    (hdone : s.Completed t (renderEvents s.config.ctLetters text))
    (hsamples : (t.chain.samples, t.chain.mode) = sampleSteps s.config.leSpecialLevel (s.lines.oe, false)
      (textPatterns s.config.ctLetters text).length (s.chain.samples, s.chain.mode)) :
    t.chain.mode = .normal ∧ t.NoSwitchBegun := by
  obtain ⟨-, -, hoe⟩ := completed_render_lines hclk hdone
  obtain ⟨-, -, -, -, -, -, hconfig, -⟩ := hdone
  have hkeep := sampleSteps_of_noSwitchBegun hswitch hf hm (textPatterns s.config.ctLetters text).length
  rw [← hsamples] at hkeep
  obtain ⟨hmode, hbegun⟩ := hkeep
  refine ⟨hmode, ?_⟩
  unfold State.NoSwitchBegun
  rw [hoe, hconfig]
  exact hbegun.imp_right (Or.imp_left fun ⟨hspecial, hlow⟩ => ⟨hspecial, fun _ => hlow⟩)

/-! ### A full frame -/

/-- Index k of mapped character i is index 8i + k of the joined patterns (R40, R101). -/
theorem textPatterns_getElem? (t : CharacterTable) {text : List Byte} {i k : Nat} {ch : Byte}
    (hi : (mappedChars text)[i]? = some ch) (hk : k < 8) :
    (textPatterns t text)[8 * i + k]? = (encodeChar t ch)[k]? := by
  rw [← textPatterns_mappedChars]
  have hall : ∀ c ∈ mappedChars text, (encodeChar t c).length = 8 := fun c hc => by
    rw [encodeChar_length, if_pos (List.mem_filter.mp hc).2]
  generalize mappedChars text = chars at hi hall
  induction chars generalizing i with
  | nil => cases hi
  | cons c cs ih =>
    have hlen := hall c (List.mem_cons_self ..)
    rw [textPatterns_cons, List.getElem?_append]
    cases i with
    | zero =>
      obtain rfl : c = ch := by simpa using hi
      rw [if_pos (by omega), Nat.mul_zero, Nat.zero_add]
    | succ i =>
      rw [if_neg (by omega), hlen, show 8 * (i + 1) + k - 8 = 8 * i + k by omega]
      exact ih hi fun c hc => hall c (List.mem_cons_of_mem _ hc)

theorem levelsOn_renderEvents (t : CharacterTable) (text : List Byte) :
    levelsOn .data (renderEvents t text) = (textPatterns t text).reverse := by
  rw [renderEvents_eq, levelsOn_append, levelsOn_serialEvents]
  exact List.append_nil _

/-- The pulse at which an index of the joined patterns goes out, last index first (R40). -/
theorem levelsOn_renderEvents_getElem? (t : CharacterTable) {text : List Byte} {i k : Nat}
    (hi : i < (mappedChars text).length) (hk : k < 8) :
    (levelsOn .data (renderEvents t text))[8 * ((mappedChars text).length - 1 - i) + (7 - k)]? =
      (textPatterns t text)[8 * i + k]? := by
  have hlen := textPatterns_length t text
  rw [levelsOn_renderEvents, List.getElem?_reverse (by omega)]
  congr 1
  omega

/-- Settles O30: the stages are the patterns, the display register takes them in Normal mode, and the patterns go
out in reverse. -/
theorem fullFrameLandsInPlace : Obligations.FullFrameLandsInPlace := by
  unfold Obligations.FullFrameLandsInPlace
  rintro text s hclk hle ⟨hsize, -, -⟩ hfull hm hswitch hrun
  obtain ⟨t, ht, hdone, hstage, hsamples, hdisp, -⟩ := exec_render_of_runs hclk hle hrun
  obtain ⟨hmode, -⟩ := render_keeps_normal hclk hrun.2.1 hm hswitch hdone hsamples
  have hlen : (textPatterns s.config.ctLetters text).length = s.chain.stage.length := by
    rw [textPatterns_length, hsize, hfull]
  rw [hmode, if_pos rfl, hstage, List.take_left' hlen] at hdisp
  refine ⟨t, ht, hmode, fun i k ch hi hk => ?_⟩
  have hchar := textPatterns_getElem? s.config.ctLetters hi hk
  obtain ⟨hlt, -⟩ := List.getElem?_eq_some_iff.mp hi
  exact ⟨by rw [hdisp, hchar], by rw [levelsOn_renderEvents_getElem? _ hlt hk, hchar]⟩

/-! ### RENDER repeated -/

/-- After a completed RENDER the collaborator's answers are those behind the RENDER's writes. -/
theorem runsThrough_of_append {i : Instr} (hi : needsGuard i = true) {s t : State} {evs : List Event}
    (h : s.RunsThrough (commandEvents s.config s.lines.oe i ++ evs)) (ht : exec i s = .next t) :
    t.RunsThrough evs := by
  obtain ⟨hg, hf, hok⟩ := h
  rw [← eventsOf_command] at hok
  have hrun : s.RunsThrough (eventsOf (commandScript s.config i) s.guarded) :=
    ⟨hg, hf, fun k hk => hok k (by rw [writesIn_append]; omega)⟩
  rw [eq_underGuard_of_exec hi ht, underGuard_of_runs hrun]
  refine ⟨by simp, by simpa using hf, fun k hk => ?_⟩
  rw [ioAnswerAt_congr (s := s.guarded.quietAll (commandScript s.config i)) (by simp) (by simp),
    quietAll_ioAnswerAt, guarded_ioAnswerAt]
  exact hok _ (by rw [writesIn_append, writesIn_eventsOf]; omega)

/-- Settles O31: a RENDER of at least the chain's length leaves stages that do not depend on the old ones. -/
theorem fullRenderIdempotent : Obligations.FullRenderIdempotent := by
  unfold Obligations.FullRenderIdempotent
  rintro text s hclk hle ⟨hsize, -, -⟩ hfull hm hswitch hrun
  have hfirst : s.RunsThrough (renderEvents s.config.ctLetters text) := by
    obtain ⟨hg, hf, hok⟩ := hrun
    exact ⟨hg, hf, fun k hk => hok k (by rw [writesIn_append]; omega)⟩
  have hlen : s.chain.stage.length ≤ (textPatterns s.config.ctLetters text).length := by
    rw [textPatterns_length, hsize]
    exact Nat.mul_le_mul_left 8 hfull
  obtain ⟨t, ht, tdone, tstage, tsamples, tdisp, -⟩ := exec_render_of_runs hclk hle hfirst
  obtain ⟨tmode, tswitch⟩ := render_keeps_normal hclk hfirst.2.1 hm hswitch tdone tsamples
  obtain ⟨tclk, tle, -⟩ := completed_render_lines hclk tdone
  have hsecond := runsThrough_of_append (i := .render text) rfl hrun ht
  have ⟨ttrace, _, _, tfatal, _, _, tconfig, _⟩ := tdone
  rw [← tconfig] at hsecond
  obtain ⟨u, hu, udone, ustage, usamples, udisp, -⟩ := exec_render_of_runs tclk tle hsecond
  obtain ⟨umode, -⟩ := render_keeps_normal tclk tfatal tmode tswitch udone usamples
  rw [List.take_append_of_le_length hlen] at tstage
  have tlen : t.chain.stage.length = s.chain.stage.length := by
    rw [tstage, List.length_take_of_le hlen]
  rw [tlen, tconfig, List.take_append_of_le_length hlen, ← tstage] at ustage
  rw [tmode, if_pos rfl] at tdisp
  rw [umode, if_pos rfl, ustage] at udisp
  obtain ⟨utrace, -⟩ := udone
  rw [tconfig] at utrace
  exact ⟨t, u, ht, hu, tdisp, udisp.trans tdisp.symm, ttrace, utrace⟩

/-! ### A short text repeated (log 19) -/

/-- After reset, on a chain of three chips that holds 1s in its stages. -/
def onesChain : State :=
  { State.resetWith { defaultConfig with nPositions := 3 } with
    chain :=
      { stage := List.replicate 24 true
        disp := List.replicate 24 false
        cfg := List.replicate 24 false
        mode := .normal
        samples := [] } }

theorem onesChain_lastSampleLow : onesChain.LastSampleLow := by
  intro _ x hx
  cases hx

/-- The space rendered once more: its eight 0s reach the third chip at the third RENDER. -/
theorem onesChain_renders :
    ∃ t u, execAll [.render [0x20#8], .render [0x20#8]] onesChain = .next t ∧
      exec (.render [0x20#8]) t = .next u ∧ t.chain.mode = .normal ∧ u.chain.mode = .normal ∧
      t.chain.disp = List.replicate 16 false ++ List.replicate 8 true ∧ u.chain.disp = List.replicate 24 false :=
  ⟨_, _, rfl, rfl, by decide, by decide, by decide, by decide⟩

/-- Settles O32: on three chips holding 1s, the space rendered twice leaves the third chip as it was. -/
theorem shortRenderNeedNotSettle : Obligations.ShortRenderNeedNotSettle := by
  unfold Obligations.ShortRenderNeedNotSettle
  obtain ⟨t, u, ht, hu, htmode, humode, htdisp, hudisp⟩ := onesChain_renders
  refine ⟨[0x20#8], onesChain, t, u, fun _ => ⟨rfl, rfl⟩, onesChain_lastSampleLow, rfl, ⟨rfl, rfl, rfl⟩, rfl, rfl,
    rfl, by decide, ht, hu, htmode, humode, ?_⟩
  rw [htdisp, hudisp]
  decide

end Sys2Proof.Machine
end
